-- ==== Sys2Proof/Word.lean ====
section
/-! DEFINITION. The widths of the block: accumulator and result words, input bytes, command words
(00_scope.md R7). -/

namespace Sys2Proof

/-- The accumulator and the result: 32 bits, unsigned (00_scope.md R7, 10_state.md R20). -/
abbrev Word := BitVec 32

/-- One element of the input sequence: 8 bits, unsigned (00_scope.md R7). -/
abbrev Byte := BitVec 8

/-- A command word `cmd[9:0]` (30_encoding.md R71). -/
abbrev Command := BitVec 10

end Sys2Proof
end

