-- ==== Sys2Proof/Syntax.lean ====
section
/-! DEFINITION. The instructions: the three commands of the block and its reserved opcode, one
constructor per row of spec/opcode_table.json (30_encoding.md R73). -/

namespace Sys2Proof

/-- What a command word stands for. INIT and FINALIZE have no operand: their `data` field is ignored and
nothing tells one of their words from another (30_encoding.md R72, R74). -/
inductive Instr where
  /-- INIT, `op = 00` (41_commands.md R122). -/
  | init
  /-- UPDATE b, `op = 01`: `b` is the input byte `cmd[7:0]` (41_commands.md R123). -/
  | update (b : Byte)
  /-- FINALIZE, `op = 10` (41_commands.md R124). -/
  | finalize
  /-- The reserved opcode, `op = 11` (41_commands.md R125). `data` is the rest of the word, kept so that
  `.cmd 0x3HH` can be written (30_encoding.md R78); no behaviour depends on it. DESIGN CHOICE, safe
  (notes/assumptions/4.md). -/
  | reserved (data : Byte)
  deriving DecidableEq, Repr

end Sys2Proof
end

