-- ==== Sys2Proof/WellFormed.lean ====
section
/-! DEFINITION. The checks a careful sender makes of an instruction and of a command word before it sends
one. The machine runs what fails them all the same. -/

namespace Sys2Proof

/-- An instruction that software may send: one of the three assigned opcodes. "software written to this
spec must never send it" is said of `op = 11` (30_encoding.md R76, 70_reset_and_hazards.md R194 H5). The
operand of UPDATE is in range by its type. DESIGN CHOICE, safe: the name for this check
(notes/assumptions/11.md). -/
def Instr.wellFormed : Instr → Bool
  | .init => true
  | .update _ => true
  | .finalize => true
  | .reserved _ => false

/-- A canonical word, one that an encoder emits for INIT, UPDATE or FINALIZE: `data = 0x00` for INIT and
FINALIZE, any `data` for UPDATE, none for `op = 11` (30_encoding.md R73, R74). -/
def canonicalWord (w : Command) : Bool :=
  match (w.extractLsb' 8 2).toNat with
  | 0 => w.extractLsb' 0 8 == 0
  | 1 => true
  | 2 => w.extractLsb' 0 8 == 0
  | _ => false

end Sys2Proof
end

