-- ==== Sys2Proof/Decode.lean ====
section
/-! DEFINITION. From a command word to the instruction it stands for, total on all 1024 words
(30_encoding.md R76), and back. -/

namespace Sys2Proof

/-- The opcode field `op = cmd[9:8]` (30_encoding.md R71). -/
def opField (w : Command) : BitVec 2 := w.extractLsb' 8 2

/-- The data field `data = cmd[7:0]`: the byte of UPDATE, bit `i` of its value on `cmd[i]`
(30_encoding.md R71, R72; 20_memory.md R52). -/
def dataField (w : Command) : Byte := w.extractLsb' 0 8

/-- The opcode map (30_encoding.md R73). The decoder needs only `cmd[9:8]` and refuses no word. -/
def decode (w : Command) : Instr :=
  if opField w = 0b00 then .init
  else if opField w = 0b01 then .update (dataField w)
  else if opField w = 0b10 then .finalize
  else .reserved (dataField w)

/-- The word an encoder emits: the canonical word of INIT, UPDATE b or FINALIZE (30_encoding.md R73, R74);
for the reserved opcode the word `.cmd 0x3HH` emits (30_encoding.md R78). The opcode stands in the high
bits. -/
def encode : Instr → Command
  | .init => 0x000
  | .update b => 0b01#2 ++ b
  | .finalize => 0x200
  | .reserved d => 0b11#2 ++ d

/-- The row of spec/opcode_table.json an instruction belongs to: the `match` value of its mask 0x300
(30_encoding.md R73). -/
def tableMatch : Instr → Command
  | .init => 0x000
  | .update _ => 0x100
  | .finalize => 0x200
  | .reserved _ => 0x300

/-- The ten wires `cmd[9:0]` of a word numbered as spec/opcode_table.json numbers it: the first `nbits`
bits of `w`, of which the port carries the lowest ten. DESIGN CHOICE, safe: bits the port has no wire for
are dropped (notes/assumptions/3.md). -/
def commandOfTableWord (nbits w : Nat) : Command := BitVec.ofNat 10 (w % 2 ^ nbits)

/-- What the decoder reads from a word of the opcode table. It refuses none (30_encoding.md R76). -/
def decodeTableWord (nbits w : Nat) : Option Instr := some (decode (commandOfTableWord nbits w))

end Sys2Proof
end

