-- ==== Sys2Proof/Config.lean ====
section
/-! DEFINITION. The constants of the block (00_scope.md R7, R8) and the inputs nobody has fixed:
the host's choice at an edge, a free input of the step (10_state.md R30). -/

namespace Sys2Proof

/-- INIT_VAL: the accumulator at the start of a computation (00_scope.md R7). -/
def Config.initVal : Word := 0xFFFFFFFF

/-- POLY: the constant the engine step XORs in. A constant of the hardware, no state (00_scope.md R8). -/
def Config.poly : Word := 0xEDB88320

/-- XOROUT: the constant of the final-XOR stage (00_scope.md R7). -/
def Config.xorOut : Word := 0xFFFFFFFF

/-- NSTEP: engine steps per input byte (00_scope.md R7). -/
def Config.nStep : Nat := 8

/-- The input `rst` at an edge the model's state names no input for: a FREE VALUE, nothing constrains
it (10_state.md R30; notes/assumptions/1.md). -/
opaque Config.freeRst : Nat → Bool

/-- The input `cmd_valid` at such an edge: a FREE VALUE (10_state.md R30; notes/assumptions/1.md). -/
opaque Config.freeCmdValid : Nat → Bool

/-- The input `cmd` at such an edge: a FREE VALUE (10_state.md R30; notes/assumptions/1.md). -/
opaque Config.freeCmd : Nat → Command

end Sys2Proof
end

