-- ==== Sys2Proof/Machine/Datapath.lean ====
section
/-! DEFINITION. The pure functions of the datapath: absorb, engine step, final XOR, their compositions, the
equal forms the spec proves (40_datapath_primitives.md), and compute_crc32 (42_transaction_contract.md). -/

namespace Sys2Proof.Machine

/-- `zext_32(b) = {0x000000, b}` (00_scope.md R9, 30_encoding.md R72). -/
def zext32 (b : Byte) : Word := b.setWidth 32

/-- `v >> 1 = {0, v[31:1]}`: logical, a zero enters bit 31 (00_scope.md R9). -/
def shr1 (v : Word) : Word := v >>> 1

/-- ABSORB: the byte goes into the low 8 bits (R100). -/
def crcAbsorb (c : Word) (b : Byte) : Word := c ^^^ zext32 b

/-- STEP: one step of the shift_and_xor engine. Bit 0 is tested before the shift (R101). -/
def crcStep (c : Word) : Word := if c.getLsbD 0 then shr1 c ^^^ Config.poly else shr1 c

/-- FINALXOR: the one's complement (R104). -/
def crcFinalXor (c : Word) : Word := c ^^^ Config.xorOut

/-- `STEP^n` (00_scope.md R9, `f^n(v)`). -/
def crcSteps : Nat → Word → Word
  | 0, c => c
  | n + 1, c => crcSteps n (crcStep c)

/-- STEP8: "Repeat 8 times" (R103). -/
def crcStep8 (c : Word) : Word := crcSteps Config.nStep c

/-- UPD: the whole effect on the accumulator of one input byte (R103). -/
def crcUpd (c : Word) (b : Byte) : Word := crcStep8 (crcAbsorb c b)

/-- FOLD: UPD over a byte sequence, first byte first (R103, 20_memory.md R51). -/
def crcFold : Word → List Byte → Word
  | c, [] => c
  | c, b :: bs => crcFold (crcUpd c b) bs

/-- compute_crc32 (42_transaction_contract.md R150). -/
def computeCrc32 (bs : List Byte) : Word := crcFinalXor (crcFold Config.initVal bs)

/-- STEPINV: the inverse of the engine step (R105). -/
def crcStepInv (n : Word) : Word :=
  if n.getLsbD 31 then ((n ^^^ Config.poly) <<< 1) ||| 1 else n <<< 1

/-- SERIN: one step of the serial-input form (R106). -/
def crcSerIn (c : Word) (t : Bool) : Word :=
  if (c.getLsbD 0 ^^ t) then shr1 c ^^^ Config.poly else shr1 c

/-- The serial-input form fed the bits of `b` in the places listed, first place first (R106). -/
def crcSerial (b : Byte) : Word → List Nat → Word
  | c, [] => c
  | c, k :: ks => crcSerial b (crcSerIn c (b.getLsbD k)) ks

/-- `T[i] = STEP8(zext_32(i))`: an entry of the lookup table, which this block does not hold
(R107, 42_transaction_contract.md R158). -/
def crcTable (i : Byte) : Word := crcStep8 (zext32 i)

/-- UPD in table form: `(c >> 8) ^ T[(c ^ zext_32(b))[7:0]]` (R107). -/
def crcUpdByTable (c : Word) (b : Byte) : Word :=
  (c >>> 8) ^^^ crcTable ((c ^^^ zext32 b).extractLsb' 0 8)

end Sys2Proof.Machine
end

