-- ==== Sys2Proof/Machine/State.lean ====
section
/-! DEFINITION. The state of the block (10_state.md R34), the inputs of an edge, the state after reset and
the reasons a step can stop. -/

namespace Sys2Proof.Machine

/-- The status `st` (10_state.md R22). The encoding 3 is no value of it (R34). -/
inductive Status where
  /-- 0: no byte absorbed since the last reset or accepted INIT. -/
  | fresh
  /-- 1: at least one UPDATE accepted since then. -/
  | accum
  /-- 2: a FINALIZE was accepted; the terminal state. -/
  | final
  deriving DecidableEq, Repr

/-- The sticky fault code `ecode` (10_state.md R23, 60_exceptions.md R171). -/
inductive ECode where
  /-- 0: no protocol fault since reset. -/
  | none
  /-- 1: the reserved opcode was executed. -/
  | reservedOp
  /-- 2: UPDATE was executed in FINAL. -/
  | updateAfterFinal
  /-- 3: FINALIZE was executed in FINAL. -/
  | finalizeAfterFinal
  deriving DecidableEq, Repr

/-- The input ports sampled at one edge; every bit is definite (10_state.md R34, 30_encoding.md R70). -/
structure Inputs where
  /-- `rst`: synchronous reset, active high. -/
  rst : Bool
  /-- `cmd_valid`: the host offers the command on `cmd` at this edge. -/
  cmdValid : Bool
  /-- `cmd`: the command word. -/
  cmd : Command
  deriving DecidableEq, Repr

/-- The whole state: the block's four elements (10_state.md R20 to R23, R34), and two fields of the
model's own that hold the host's part of the coming edges. -/
structure State where
  /-- The accumulator (R20). -/
  crc : Word
  /-- Engine steps of the current UPDATE still to be applied, 0 to 8 (R21). -/
  cnt : Fin 9
  /-- The status (R22). -/
  st : Status
  /-- The fault code (R23). -/
  ecode : ECode
  /-- The MODEL's own: what the host drives at the coming edges, next edge first. After the last of them
  the inputs are free (notes/assumptions/1.md). -/
  inputs : List Inputs
  /-- The MODEL's own: the number the free inputs of the next edge are read at
  (notes/assumptions/1.md). -/
  edge : Nat
  deriving DecidableEq, Repr

/-- The reset state (10_state.md R32, 70_reset_and_hazards.md R190). The two fields of the model's own
start empty and at 0: DESIGN CHOICE, no statement rests on it (notes/assumptions/1.md). -/
def State.reset : State where
  crc := Config.initVal
  cnt := 0
  st := .fresh
  ecode := .none
  inputs := []
  edge := 0

/-- Reasons a step stops the machine with a fault: there are none. A protocol fault of the block is a
next state with `ecode` written (60_exceptions.md R172), and the computation raises nothing (R170). Safe:
no behaviour is hidden behind a stop. -/
inductive Fault where
  deriving DecidableEq, Repr

/-- Reasons the model gives no meaning. -/
inductive Refusal where
  /-- Raised by no arm of `exec`: every instruction has its meaning. The place for an instruction that had
  none; safe, since such a run would prove nothing. -/
  | notModelled (mnemonic : String)
  /-- Raised by `powerUpEdge` alone, never by `step`: an edge with `rst = 0` before the first reset, to
  which the spec gives no meaning (10_state.md R33, 93_implementation_defined.md U7). Safe: nothing can be
  claimed of a block that was never reset. -/
  | beforeFirstReset
  deriving DecidableEq, Repr

end Sys2Proof.Machine
end

