-- ==== Sys2Proof/Machine/Ops.lean ====
section
/-! DEFINITION. The named operations on the state: the inputs of the next edge, the choice of arm of the
edge function (41_commands.md R120), the writes each arm makes, and raising a protocol fault. -/

namespace Sys2Proof.Machine

/-- The inputs sampled at the next edge: what the host drives, or free values once the model's state names
no more of them (10_state.md R30, R34). DESIGN CHOICE: every state reads the same free functions at its own `edge`
(notes/assumptions/1.md), so among several instances those with equal `edge` and no named inputs left are
driven alike, which the spec does not say (60_exceptions.md R180): unsafe (notes/assumptions/14.md). -/
def State.input (s : State) : Inputs :=
  match s.inputs with
  | i :: _ => i
  | [] => ⟨Config.freeRst s.edge, Config.freeCmdValid s.edge, Config.freeCmd s.edge⟩

/-- The edge is taken: its inputs are gone, the block's four elements are as they were. -/
def State.tick (s : State) : State := { s with inputs := s.inputs.tail, edge := s.edge + 1 }

/-- The next edge is driven with these inputs; those named before come after it. -/
def State.drive (s : State) (i : Inputs) : State := { s with inputs := i :: s.inputs }

/-- What happens at an edge (41_commands.md R120): arm A, B, C, or D and E together. -/
inductive Arm where
  /-- A: reset. -/
  | reset
  /-- B: an engine step in progress. -/
  | engine
  /-- C: idle. -/
  | idle
  /-- D and E: the word on `cmd` is transferred. -/
  | transfer (w : Command)
  deriving DecidableEq, Repr

/-- The choice of arm: reset beats everything, an engine step beats any offer, a command is transferred iff
`rst = 0`, `cmd_valid = 1` and `cnt = 0` (41_commands.md R120, 30_encoding.md R75, 60_exceptions.md R173). -/
def State.arm (s : State) : Arm :=
  if s.input.rst then .reset
  else if s.cnt ≠ 0 then .engine
  else if s.input.cmdValid then .transfer s.input.cmd
  else .idle

/-- Arm A: the writes of reset (70_reset_and_hazards.md R190). It is also the only way out of a protocol
fault: there is no return-from-fault command (60_exceptions.md R174). -/
def State.applyReset (s : State) : State :=
  { s with crc := Config.initVal, cnt := 0, st := .fresh, ecode := .none }

/-- One less, stopping at 0 (10_state.md R21, R24). -/
def cntDown (n : Fin 9) : Fin 9 := ⟨n.val - 1, by omega⟩

/-- Arm B: one engine step (41_commands.md R121). -/
def State.engineStep (s : State) : State :=
  { s with crc := crcStep s.crc, cnt := cntDown s.cnt }

/-- The writes of an executed INIT: a computation starts (41_commands.md R122). -/
def State.startTransaction (s : State) : State := { s with crc := Config.initVal, st := .fresh }

/-- The writes of an executed UPDATE: the absorb, and eight engine steps to come (41_commands.md R123). -/
def State.absorb (s : State) (b : Byte) : State :=
  { s with crc := crcAbsorb s.crc b, cnt := 8, st := .accum }

/-- The writes of an executed FINALIZE: the status alone (41_commands.md R124). -/
def State.finish (s : State) : State := { s with st := .final }

/-- TAKING A PROTOCOL FAULT, the block's one exception: `raise ProtocolFault(code)` writes `ecode` and
nothing else; nothing is saved, there is no handler and no mode (60_exceptions.md R172). The way back is
`State.applyReset` alone (R174). -/
def State.raiseFault (s : State) (code : ECode) : State := { s with ecode := code }

/-- A transferred command takes effect only while no fault is recorded (arm E); otherwise it is discarded
and no state element is written (arm D) (41_commands.md R120, R126). -/
def State.ifLive (s t : State) : State := if s.ecode = .none then t else s

end Sys2Proof.Machine
end

