-- ==== Sys2Proof/Machine/Operands.lean ====
section
/-! DEFINITION. The one operand form of the block, the immediate byte of UPDATE, and the words and inputs
a host offers. -/

namespace Sys2Proof.Machine

/-- The operand of UPDATE as the absorb uses it: `zext_32(cmd[7:0])`, never sign-extended, scaled, shifted
or reversed (30_encoding.md R72). INIT, FINALIZE and the reserved opcode have no operand. -/
def operandWord (w : Command) : Word := zext32 (dataField w)

/-- The inputs by which a host offers a command (30_encoding.md R75). -/
def offer (w : Command) : Inputs := ⟨false, true, w⟩

/-- The inputs of an idle edge; `cmd` is ignored at it (41_commands.md R127, 30_encoding.md R80). -/
def idleInputs : Inputs := ⟨false, false, 0⟩

/-- The inputs of a reset edge; `cmd_valid` and `cmd` are irrelevant at it (30_encoding.md R80). -/
def resetInputs : Inputs := ⟨true, false, 0⟩

/-- The next edge transfers this word: it is offered at that edge, and the engine is idle (`cnt = 0`),
without which no word is transferred (30_encoding.md R75). -/
def State.offerNext (s : State) (w : Command) : State := { s with cnt := 0 }.drive (offer w)

end Sys2Proof.Machine
end

