-- ==== Sys2Proof/Machine/Commands.lean ====
section
/-! DEFINITION. The meanings of the commands at the edge they are transferred at (41_commands.md R122 to
R126). A meaning is asked for only at such an edge: `step` takes care of reset, of the engine steps and of
idle edges (notes/assumptions/7.md). -/

namespace Sys2Proof.Machine

/-- INIT (R122): a new transaction starts, whatever the status. -/
def execInit (s : State) : Host.Outcome State Fault Refusal :=
  .next (s.ifLive s.startTransaction)

/-- UPDATE b (R123): a protocol fault in FINAL, else the absorb. The eight engine steps follow at the next
edges (R121). -/
def execUpdate (b : Byte) (s : State) : Host.Outcome State Fault Refusal :=
  .next (s.ifLive (if s.st = .final then s.raiseFault .updateAfterFinal else s.absorb b))

/-- FINALIZE (R124): a protocol fault in FINAL, else the status becomes FINAL; `crc` is not written. -/
def execFinalize (s : State) : Host.Outcome State Fault Refusal :=
  .next (s.ifLive (if s.st = .final then s.raiseFault .finalizeAfterFinal else s.finish))

/-- The reserved opcode (R125): a protocol fault in every status, whatever `data` is. -/
def execReserved (s : State) : Host.Outcome State Fault Refusal :=
  .next (s.ifLive (s.raiseFault .reservedOp))

end Sys2Proof.Machine
end

