-- ==== Sys2Proof/Machine/Dispatch.lean ====
section
/-! DEFINITION. One arm per instruction (41_commands.md R120, arms D and E). -/

namespace Sys2Proof.Machine

def exec (i : Instr) (s : State) : Host.Outcome State Fault Refusal :=
  match i with
  | .init => Sys2Proof.Machine.execInit s
  | .update b => Sys2Proof.Machine.execUpdate b s
  | .finalize => Sys2Proof.Machine.execFinalize s
  | .reserved _ => Sys2Proof.Machine.execReserved s

end Sys2Proof.Machine
end

