-- ==== Sys2Proof/Machine/Step.lean ====
section
/-! DEFINITION. One step: one rising edge of the clock (41_commands.md R120, 00_scope.md R11). -/

namespace Sys2Proof.Machine

/-- The edge function (R120). At every edge exactly one arm applies; a transferred word is decoded and
run. -/
def step (s : State) : Host.Outcome State Fault Refusal :=
  match s.arm with
  | .reset => .next s.tick.applyReset
  | .engine => .next s.tick.engineStep
  | .idle => .next s.tick
  | .transfer w => exec (decode w) s.tick

/-- The state in which the very next edge transfers this word of the opcode table. The block has no program
and no fetch (10_state.md R24): this stands for the host's offer (notes/assumptions/2.md). -/
def State.withFetchWord (s : State) (nbits w : Nat) : State := s.offerNext (commandOfTableWord nbits w)

end Sys2Proof.Machine
end

