-- ==== Sys2Proof/Machine/Instances.lean ====
section
/-! DEFINITION. Several instances of the block (60_exceptions.md R180): each its own state and ports,
nothing shared. -/

namespace Sys2Proof.Machine

/-- An edge of instance `k`; instances share nothing, so the others stay as they are (R180). No instance
of that number, no change. DESIGN CHOICE, safe: instances are stepped one at a time
(notes/assumptions/12.md). What drives an instance whose named inputs have run out is DESIGN CHOICE, unsafe:
instances with equal `edge` are then driven alike (notes/assumptions/14.md). -/
def stepInstance (k : Nat) (sys : List State) : Host.Outcome (List State) Fault Refusal :=
  match sys[k]? with
  | some s =>
    match step s with
    | .next t => .next (sys.set k t)
    | .fault r => .fault r
    | .refused r => .refused r
  | none => .next sys

/-- The edges of several instances in the order they are taken, each with its instance and with the inputs
its host drives there; the ports of the others are not touched (R180). One edge at a time: DESIGN CHOICE, safe
(notes/assumptions/12.md). -/
def runInstances : List State → List (Nat × Inputs) → Host.Outcome (List State) Fault Refusal
  | sys, [] => .next sys
  | sys, (k, i) :: es =>
    match stepInstance k (sys.modify k (·.drive i)) with
    | .next sys' => runInstances sys' es
    | .fault r => .fault r
    | .refused r => .refused r

/-- The inputs of instance `k`'s own edges among these, in order (R180). -/
def inputsOf (k : Nat) (es : List (Nat × Inputs)) : List Inputs :=
  (es.filter fun e => e.1 = k).map Prod.snd

end Sys2Proof.Machine
end

