-- ==== Sys2Proof/Machine/Flags.lean ====
section
/-! DEFINITION. The derived flags and the output ports, every one a function of the state alone
(10_state.md R25, R26), and the encodings of the status and the fault code. -/

namespace Sys2Proof.Machine

/-- The encoding of `st` on the port `status` (10_state.md R22). -/
def Status.code : Status → BitVec 2
  | .fresh => 0
  | .accum => 1
  | .final => 2

/-- The encoding of `ecode` on the port of that name (10_state.md R23). -/
def ECode.code : ECode → BitVec 2
  | .none => 0
  | .reservedOp => 1
  | .updateAfterFinal => 2
  | .finalizeAfterFinal => 3

/-- `cmd_ready = (cnt == 0)` (R25). -/
def State.cmdReady (s : State) : Bool := s.cnt == 0

/-- `err = (ecode != 0)` (R25). -/
def State.err (s : State) : Bool := s.ecode != .none

/-- `result_valid = (st == FINAL) and (ecode == 0)` (R25). -/
def State.resultValid (s : State) : Bool := s.st == .final && s.ecode == .none

/-- `result`: the complement of the accumulator when valid, else zero, so that no intermediate value is
ever visible (R25, R29). -/
def State.result (s : State) : Word := if s.resultValid then crcFinalXor s.crc else 0

/-- The output ports (30_encoding.md R70). -/
structure Outputs where
  cmdReady : Bool
  status : BitVec 2
  resultValid : Bool
  result : Word
  err : Bool
  ecode : BitVec 2
  deriving DecidableEq, Repr

/-- What the host can sample between edges. Reading it has no effect (R25, 20_memory.md R55). -/
def State.outputs (s : State) : Outputs where
  cmdReady := s.cmdReady
  status := s.st.code
  resultValid := s.resultValid
  result := s.result
  err := s.err
  ecode := s.ecode.code

end Sys2Proof.Machine
end

