-- ==== Sys2Proof/Machine/PowerUp.lean ====
section
/-! DEFINITION. The block's forty bits as raw bits: the state encoded (10_state.md R20 to R23), and the
power-up state with the one edge it has a meaning for (R33, 70_reset_and_hazards.md R192). -/

namespace Sys2Proof.Machine

/-- Forty raw bits. Before the first reset any pattern, the parameter S_powerup (10_state.md R33,
92_eei_decisions.md D4); notes/assumptions/6.md. -/
structure RawBits where
  crc : BitVec 32
  cnt : BitVec 4
  st : BitVec 2
  ecode : BitVec 2
  deriving DecidableEq, Repr

/-- The bits that hold a state (10_state.md R20 to R23). -/
def State.rawBits (s : State) : RawBits := ⟨s.crc, BitVec.ofNat 4 s.cnt.val, s.st.code, s.ecode.code⟩

/-- The status two bits stand for; 3 is unreachable and stands for none (10_state.md R22). -/
def statusOfCode (v : BitVec 2) : Option Status :=
  if v = 0 then some .fresh else if v = 1 then some .accum else if v = 2 then some .final else none

/-- The fault code two bits stand for (10_state.md R23). -/
def ecodeOfCode (v : BitVec 2) : ECode :=
  if v = 0 then .none else if v = 1 then .reservedOp else if v = 2 then .updateAfterFinal
  else .finalizeAfterFinal

/-- The count four bits stand for; 9 to 15 are unreachable and stand for none (10_state.md R21). -/
def cntOfCode (v : BitVec 4) : Option (Fin 9) :=
  if h : v.toNat < 9 then some ⟨v.toNat, h⟩ else none

/-- The state that raw bits stand for, if they stand for one (10_state.md R34,
93_implementation_defined.md U6). The model's own two fields are as in the reset state. -/
def RawBits.state? (p : RawBits) : Option State :=
  match cntOfCode p.cnt, statusOfCode p.st with
  | some n, some v => some { State.reset with crc := p.crc, cnt := n, st := v, ecode := ecodeOfCode p.ecode }
  | _, _ => none

/-- An edge before the first reset: an edge with `rst = 1` leads to the reset state whatever the bits were;
no other edge has a meaning (10_state.md R33). -/
def powerUpEdge (_p : RawBits) (i : Inputs) : Host.Outcome State Fault Refusal :=
  if i.rst then .next State.reset else .refused .beforeFirstReset

end Sys2Proof.Machine
end

