-- ==== Sys2Proof/Machine/CommandLevel.lean ====
section
/-! DEFINITION. The command level: a command with all of its consequences as one transition of
`(crc, st, ecode)` (00_scope.md R11, 41_commands.md R129). -/

namespace Sys2Proof.Machine

/-- The command-level state (R129). -/
structure CmdState where
  crc : Word
  st : Status
  ecode : ECode
  deriving DecidableEq, Repr

/-- The command-level transition table, row by row (R129). -/
def cmdLevel (i : Instr) (v : CmdState) : CmdState :=
  match v.ecode, i, v.st with
  | .none, .init, _ => ⟨Config.initVal, .fresh, .none⟩
  | .none, .update _, .final => ⟨v.crc, .final, .updateAfterFinal⟩
  | .none, .update b, _ => ⟨crcUpd v.crc b, .accum, .none⟩
  | .none, .finalize, .final => ⟨v.crc, .final, .finalizeAfterFinal⟩
  | .none, .finalize, _ => ⟨v.crc, .final, .none⟩
  | .none, .reserved _, st => ⟨v.crc, st, .reservedOp⟩
  | _, _, _ => v

/-- The table folded over a list of commands, first command first (R132). -/
def cmdLevelAll (v : CmdState) (is : List Instr) : CmdState := is.foldl (fun u i => cmdLevel i u) v

/-- The command-level state a state stands at, once the engine steps still to be applied are counted in.
Between commands (`cnt = 0`) it is `(crc, st, ecode)` as they stand. -/
def State.settled (s : State) : CmdState := ⟨crcSteps s.cnt.val s.crc, s.st, s.ecode⟩

/-- The commands of one message: INIT, one UPDATE per byte, FINALIZE (30_encoding.md R79 `CRC32`). -/
def messageCommands (bs : List Byte) : List Instr := .init :: (bs.map .update ++ [.finalize])

end Sys2Proof.Machine
end

