-- ==== Sys2Proof/Machine/Run.lean ====
section
/-! DEFINITION. Runs: a finite sequence of edges with chosen inputs (70_reset_and_hazards.md R203), the
commands transferred in it, and the host that wastes no edge (R201). -/

namespace Sys2Proof.Machine

/-- The state after the edges driven with these inputs, first edge first (R203). -/
def runInputs : State → List Inputs → Host.Outcome State Fault Refusal
  | s, [] => .next s
  | s, i :: is =>
    match step (s.drive i) with
    | .next t => runInputs t is
    | .fault r => .fault r
    | .refused r => .refused r

/-- The words transferred at those edges, in order (30_encoding.md R75). -/
def transferred : State → List Inputs → List Command
  | _, [] => []
  | s, i :: is =>
    let later := match step (s.drive i) with
      | .next t => transferred t is
      | .fault _ => []
      | .refused _ => []
    match (s.drive i).arm with
    | .transfer w => w :: later
    | .reset => later
    | .engine => later
    | .idle => later

/-- The bytes of the current message after an accepted command: INIT starts a new one, UPDATE adds its byte,
nothing else changes them (20_memory.md R58 d). -/
def bytesAfter (bs : List Byte) : Instr → List Byte
  | .init => []
  | .update b => bs ++ [b]
  | .finalize => bs
  | .reserved _ => bs

/-- The bytes of the message a state stands in, after the edges driven with these inputs: those of the
UPDATEs accepted since the last reset or accepted INIT, in order; `bs` are the bytes before the first of
those edges (20_memory.md R58 d). -/
def messageBytes : List Byte → State → List Inputs → List Byte
  | bs, _, [] => bs
  | bs, s, i :: is =>
    let bs' := match (s.drive i).arm with
      | .reset => []
      | .engine => bs
      | .idle => bs
      | .transfer w => bytesAfter bs (decode w)
    match step (s.drive i) with
    | .next t => messageBytes bs' t is
    | .fault _ => bs'
    | .refused _ => bs'

/-- No edge of these has `rst = 1`. -/
def noReset (is : List Inputs) : Bool := is.all fun i => !i.rst

/-- These inputs carry one whole transaction on the bytes: without a reset among them, the words transferred
are UPDATE of each byte and then FINALIZE, begun by a reset just before or by an accepted INIT
(00_scope.md R12, 42_transaction_contract.md R151). -/
def IsTransaction (s : State) (is : List Inputs) (bs : List Byte) : Prop :=
  noReset is = true ∧
    ((s.crc, s.cnt, s.st, s.ecode) = (Config.initVal, 0, .fresh, .none) ∧
        (transferred s is).map decode = bs.map .update ++ [.finalize] ∨
      s.cnt = 0 ∧ s.ecode = .none ∧ (transferred s is).map decode = messageCommands bs)

/-- A host that offers UPDATE b and then waits out the eight engine steps (70_reset_and_hazards.md R200). -/
def updateInputs (b : Byte) : List Inputs :=
  offer (encode (.update b)) :: List.replicate Config.nStep idleInputs

/-- A host that sends a message with each command as early as possible (70_reset_and_hazards.md R201). -/
def messageInputs (bs : List Byte) : List Inputs :=
  offer (encode .init) :: (bs.flatMap updateInputs ++ [offer (encode .finalize)])

/-- A host that offers a word at consecutive edges until the edge at which it is transferred
(30_encoding.md R78): from a state with `cnt` engine steps to go that is `cnt + 1` edges. -/
def waitAndOffer (s : State) (w : Command) : List Inputs := List.replicate (s.cnt.val + 1) (offer w)

end Sys2Proof.Machine
end

