-- ==== Sys2Proof/Machine/Script.lean ====
section
/-! DEFINITION. The text form of commands, pseudo-commands and host directives (30_encoding.md R78 to R80),
read from a list of characters. What those rules do not fix about the text is in notes/assumptions/9.md and
notes/assumptions/10.md. -/

namespace Sys2Proof.Machine

/-- What an EXPECT line can name: an output port, or a state element (30_encoding.md R80, R70). The port
and the element `ecode` have one name and one value. -/
inductive Observed where
  | cmdReady | status | resultValid | result | err | ecode | crc | cnt | st
  deriving DecidableEq, Repr

/-- One line of a script (R78 to R80). -/
inductive Line where
  /-- `INIT`, `UPDATE <byte>` or `FINALIZE`. -/
  | command (i : Instr)
  /-- `.cmd 0x3HH`: the given word, unchanged. -/
  | word (w : Command)
  /-- `UPDATES "text"` or `UPDATES 0xHH 0xHH ...`. -/
  | updates (bs : List Byte)
  /-- `CRC32`, `CRC32 "text"` or `CRC32 0xHH 0xHH ...`. -/
  | crc32 (bs : List Byte)
  /-- `RESET`. -/
  | reset
  /-- `IDLE n`. -/
  | idle (n : Nat)
  /-- `EXPECT name = value`. -/
  | expect (name : Observed) (value : Nat)
  deriving DecidableEq, Repr

/-- Why a line is no line of a script: an assembly error. -/
inductive AsmError where
  /-- No mnemonic, pseudo-command or directive of that name. -/
  | unknownMnemonic
  /-- The operands are not of the form the mnemonic takes. -/
  | badOperands
  /-- A byte above 255 or a word above 0x3FF: an error, never truncated (R78). -/
  | outOfRange
  /-- A text holds a character that is no printable ASCII (R79). -/
  | notPrintable
  /-- A text has no closing quote. -/
  | unclosedText
  deriving DecidableEq, Repr

/-- A piece of a line: a run of characters without a space, or a text in quotes. -/
inductive Token where
  | bare (cs : List Char)
  | text (cs : List Char)
  deriving DecidableEq, Repr

/-- Where a scan of a line stands: between tokens, inside a bare one, or inside a text; the characters of
the token so far, last first. -/
inductive ScanMode where
  | gap
  | bare (rev : List Char)
  | text (rev : List Char)
  deriving DecidableEq, Repr

/-- A space between tokens. -/
def isBlank (c : Char) : Bool := c == ' ' || c == '\t' || c == '\r'

/-- The tokens of one line; `;` outside a text starts a comment to the end of the line (R78). -/
def scanLine : ScanMode → List Char → Except AsmError (List Token)
  | .gap, [] => .ok []
  | .bare rev, [] => .ok [.bare rev.reverse]
  | .text _, [] => .error .unclosedText
  | .gap, c :: cs =>
    if c == ';' then .ok []
    else if isBlank c then scanLine .gap cs
    else if c == '"' then scanLine (.text []) cs
    else scanLine (.bare [c]) cs
  | .bare rev, c :: cs =>
    if c == ';' then .ok [.bare rev.reverse]
    else if isBlank c then (scanLine .gap cs).map (Token.bare rev.reverse :: ·)
    else if c == '"' then .error .badOperands
    else scanLine (.bare (c :: rev)) cs
  | .text rev, c :: cs =>
    if c == '"' then (scanLine .gap cs).map (Token.text rev.reverse :: ·)
    else scanLine (.text (c :: rev)) cs

/-- The value of a decimal digit. -/
def decDigit? (c : Char) : Option Nat :=
  if '0' ≤ c && c ≤ '9' then some (c.toNat - '0'.toNat) else none

/-- The value of a hexadecimal digit, either case (R78). -/
def hexDigit? (c : Char) : Option Nat :=
  if 'a' ≤ c && c ≤ 'f' then some (c.toNat - 'a'.toNat + 10)
  else if 'A' ≤ c && c ≤ 'F' then some (c.toNat - 'A'.toNat + 10)
  else decDigit? c

/-- The value of a run of digits after a value read so far. -/
def digits? (base : Nat) (digit : Char → Option Nat) : Nat → List Char → Option Nat
  | acc, [] => some acc
  | acc, c :: cs =>
    match digit c with
    | some d => digits? base digit (acc * base + d) cs
    | none => none

/-- A decimal numeral: one digit or more (R78, R80). -/
def decimal? (cs : List Char) : Option Nat :=
  if cs.isEmpty then none else digits? 10 decDigit? 0 cs

/-- `0x` and hexadecimal digits, exactly `n` of them where a count is given, one or more where none is. -/
def hex? (n : Option Nat) (cs : List Char) : Option Nat :=
  match cs with
  | '0' :: 'x' :: ds =>
    if (match n with | some k => ds.length == k | none => !ds.isEmpty) then digits? 16 hexDigit? 0 ds else none
  | _ => none

/-- `<byte>`: `0xHH`, exactly two hexadecimal digits, or a decimal numeral 0 to 255 (R78). -/
def byteOperand (cs : List Char) : Except AsmError Byte :=
  match hex? (some 2) cs with
  | some v => .ok (BitVec.ofNat 8 v)
  | none =>
    match decimal? cs with
    | some v => if v < 256 then .ok (BitVec.ofNat 8 v) else .error .outOfRange
    | none => .error .badOperands

/-- The word of `.cmd 0x3HH`: three hexadecimal digits, 0x000 to 0x3FF (R78). -/
def wordOperand (cs : List Char) : Except AsmError Command :=
  match hex? (some 3) cs with
  | some v => if v < 1024 then .ok (BitVec.ofNat 10 v) else .error .outOfRange
  | none => .error .badOperands

/-- The bytes of a text: the ASCII code of each character, printable ASCII 0x20 to 0x7E only (R79). -/
def textBytes : List Char → Except AsmError (List Byte)
  | [] => .ok []
  | c :: cs =>
    if 0x20 ≤ c.toNat && c.toNat ≤ 0x7E then (textBytes cs).map (BitVec.ofNat 8 c.toNat :: ·)
    else .error .notPrintable

/-- The bytes of a list of `0xHH` operands (R79). -/
def hexBytes : List Token → Except AsmError (List Byte)
  | [] => .ok []
  | .bare cs :: ts =>
    match hex? (some 2) cs with
    | some v => (hexBytes ts).map (BitVec.ofNat 8 v :: ·)
    | none => .error .badOperands
  | .text _ :: _ => .error .badOperands

/-- The operand of UPDATES: one text, or one `0xHH` or more (R79). -/
def bytesOperand : List Token → Except AsmError (List Byte)
  | [.text cs] => textBytes cs
  | [] => .error .badOperands
  | ts => hexBytes ts

/-- The names EXPECT can name (R80, R70, 10_state.md R27). -/
def observed? (cs : List Char) : Option Observed :=
  if cs = "cmd_ready".toList then some .cmdReady
  else if cs = "status".toList then some .status
  else if cs = "result_valid".toList then some .resultValid
  else if cs = "result".toList then some .result
  else if cs = "err".toList then some .err
  else if cs = "ecode".toList then some .ecode
  else if cs = "crc".toList then some .crc
  else if cs = "cnt".toList then some .cnt
  else if cs = "st".toList then some .st
  else none

/-- The value of an EXPECT line: a decimal numeral, or `0x` and hexadecimal digits
(notes/assumptions/10.md). -/
def expectValue? (cs : List Char) : Option Nat :=
  match hex? none cs with
  | some v => some v
  | none => decimal? cs

/-- A line of the mnemonic `m`, in upper case, with the operands that follow it (R78 to R80). -/
def lineOf (m : List Char) (ts : List Token) : Except AsmError Line :=
  if m = "INIT".toList then
    match ts with
    | [] => .ok (.command .init)
    | _ => .error .badOperands
  else if m = "UPDATE".toList then
    match ts with
    | [.bare cs] => (byteOperand cs).map fun b => .command (.update b)
    | _ => .error .badOperands
  else if m = "FINALIZE".toList then
    match ts with
    | [] => .ok (.command .finalize)
    | _ => .error .badOperands
  else if m = ".cmd".toList then
    match ts with
    | [.bare cs] => (wordOperand cs).map .word
    | _ => .error .badOperands
  else if m = "UPDATES".toList then (bytesOperand ts).map .updates
  else if m = "CRC32".toList then
    match ts with
    | [] => .ok (.crc32 [])
    | _ => (bytesOperand ts).map .crc32
  else if m = "RESET".toList then
    match ts with
    | [] => .ok .reset
    | _ => .error .badOperands
  else if m = "IDLE".toList then
    match ts with
    | [.bare cs] => match decimal? cs with | some n => .ok (.idle n) | none => .error .badOperands
    | _ => .error .badOperands
  else if m = "EXPECT".toList then
    match ts with
    | [.bare name, .bare ['='], .bare v] =>
      match observed? name, expectValue? v with
      | some o, some n => .ok (.expect o n)
      | _, _ => .error .badOperands
    | _ => .error .badOperands
  else .error .unknownMnemonic

/-- One line of text: no line of the script where it is blank or a comment (R78). -/
def parseLine (cs : List Char) : Except AsmError (Option Line) :=
  match scanLine .gap cs with
  | .error e => .error e
  | .ok [] => .ok none
  | .ok (.bare m :: ts) => (lineOf m ts).map some
  | .ok (.text _ :: _) => .error .unknownMnemonic

/-- The lines of a text, one command per line (R78). `rev` holds the line being read, last character
first. -/
def splitLines : List Char → List Char → List (List Char)
  | rev, [] => [rev.reverse]
  | rev, c :: cs => if c == '\n' then rev.reverse :: splitLines [] cs else splitLines (c :: rev) cs

/-- The script of a list of lines, the first error where there is one. -/
def parseLines : List (List Char) → Except AsmError (List Line)
  | [] => .ok []
  | l :: ls =>
    match parseLine l, parseLines ls with
    | .error e, _ => .error e
    | .ok none, r => r
    | .ok (some x), .ok xs => .ok (x :: xs)
    | .ok (some _), .error e => .error e

/-- The script a text stands for (R78 to R80). -/
def assemble (text : List Char) : Except AsmError (List Line) := parseLines (splitLines [] text)

/-- The command words a line expands to: none for a directive (R78, R79, R80). -/
def Line.words : Line → List Command
  | .command i => [encode i]
  | .word w => [w]
  | .updates bs => bs.map fun b => encode (.update b)
  | .crc32 bs => encode .init :: (bs.map (fun b => encode (.update b)) ++ [encode .finalize])
  | .reset => []
  | .idle _ => []
  | .expect _ _ => []

end Sys2Proof.Machine
end

