-- ==== Sys2Proof/Machine/ScriptRun.lean ====
section
/-! DEFINITION. A host that carries out a script (30_encoding.md R78 to R80). -/

namespace Sys2Proof.Machine

/-- The host offers each word until it is transferred, then moves on to the next (R78). -/
def sendWords : State → List Command → Host.Outcome State Fault Refusal
  | s, [] => .next s
  | s, w :: ws =>
    match runInputs s (waitAndOffer s w) with
    | .next t => sendWords t ws
    | .fault r => .fault r
    | .refused r => .refused r

/-- The edges of one line (R78 to R80). An EXPECT line takes none. -/
def runLine (s : State) : Line → Host.Outcome State Fault Refusal
  | .reset => runInputs s [resetInputs]
  | .idle n => runInputs s (List.replicate n idleInputs)
  | .expect _ _ => .next s
  | .command i => sendWords s (Line.command i).words
  | .word w => sendWords s (Line.word w).words
  | .updates bs => sendWords s (Line.updates bs).words
  | .crc32 bs => sendWords s (Line.crc32 bs).words

/-- The value EXPECT compares (R80): of an output port (10_state.md R25) or of a state element. -/
def State.observe (s : State) : Observed → Nat
  | .cmdReady => s.cmdReady.toNat
  | .status => s.st.code.toNat
  | .resultValid => s.resultValid.toNat
  | .result => s.result.toNat
  | .err => s.err.toNat
  | .ecode => s.ecode.code.toNat
  | .crc => s.crc.toNat
  | .cnt => s.cnt.val
  | .st => s.st.code.toNat

/-- The values the EXPECT lines of a script compare with the value stated, in order (R80), and the state
after its last edge. -/
def runScript : State → List Line → Host.Outcome (List (Observed × Nat × Nat) × State) Fault Refusal
  | s, [] => .next ([], s)
  | s, l :: ls =>
    match runLine s l with
    | .next t =>
      match runScript t ls with
      | .next (seen, u) =>
        match l with
        | .expect name v => .next ((name, v, t.observe name) :: seen, u)
        | _ => .next (seen, u)
      | .fault r => .fault r
      | .refused r => .refused r
    | .fault r => .fault r
    | .refused r => .refused r

end Sys2Proof.Machine
end

