-- ==== Sys2Proof/Safety.lean ====
section
/-! DEFINITION. What counts as a sound state and as the end of a run (10_state.md R31,
70_reset_and_hazards.md R203). -/

namespace Sys2Proof.Machine

/-- The invariants of every reachable state (10_state.md R31). I1 `cnt <= 8` and I2 `st != 3` hold by the
types of the two fields. -/
structure State.Inv (s : State) : Prop where
  /-- I3. -/
  final_idle : s.st = .final → s.cnt = 0
  /-- I4. -/
  fresh_initial : s.st = .fresh → s.crc = Config.initVal ∧ s.cnt = 0
  /-- I5. -/
  fault_idle : s.ecode ≠ .none → s.cnt = 0
  /-- I6. -/
  fault_final : s.ecode = .updateAfterFinal ∨ s.ecode = .finalizeAfterFinal → s.st = .final

/-- A successful transaction end: an instant at which `result_valid = 1` (R203). -/
def State.succeeded (s : State) : Bool := s.resultValid

/-- A run that ends in this state has faulted and has no result (R203, 60_exceptions.md R174). -/
def State.faulted (s : State) : Bool := s.err

/-- A run that ends in this state is in flight and not over (R203). -/
def State.inFlight (s : State) : Bool := !s.cmdReady

end Sys2Proof.Machine
end

