-- ==== Sys2Proof/Certificates/Slice0/Obligations.lean ====
section
/-! DEFINITION. The statements put to the provers, each a rule of spec/ or what follows from some. -/

open Sys2Proof Sys2Proof.Machine

/-! ## The datapath (40_datapath_primitives.md) -/

/-- R100: the absorb changes bits 7 to 0 alone, by XOR with the byte; it is not sign-extended. -/
def Obligations.AbsorbTouchesLowByte : Prop :=
  (∀ (c : Word) (b : Byte) (i : Nat),
    (crcAbsorb c b).getLsbD i = (if i < 8 then (c.getLsbD i ^^ b.getLsbD i) else c.getLsbD i)) ∧
  (∀ (c : Word) (b : Byte), crcAbsorb c b = c ^^^ (0x000000#24 ++ b)) ∧
  (∀ c : Word, crcAbsorb c 0x00 = c) ∧
  (∀ (c : Word) (b : Byte), crcAbsorb (crcAbsorb c b) b = c) ∧
  crcAbsorb 0x00000000 0xFF = 0x000000FF ∧ crcAbsorb 0xFFFFFFFF 0x31 = 0xFFFFFFCE

/-- R101: the engine step as CTH words it, bit by bit, and at its corners. -/
def Obligations.EngineStepBitByBit : Prop :=
  (∀ c : Word, crcStep c = if c.getLsbD 0 = true then (0#1 ++ c.extractLsb' 1 31) ^^^ 0xEDB88320#32
    else 0#1 ++ c.extractLsb' 1 31) ∧
  (∀ c : Word, (crcStep c).getLsbD 31 = c.getLsbD 0) ∧
  (∀ (c : Word) (i : Nat), i < 31 → (crcStep c).getLsbD i =
    (if i ∈ [30, 29, 27, 26, 24, 23, 21, 20, 19, 15, 9, 8, 5] then (c.getLsbD (i + 1) ^^ c.getLsbD 0)
      else c.getLsbD (i + 1))) ∧
  crcStep 0x00000000 = 0x00000000 ∧ crcStep 0x00000001 = 0xEDB88320 ∧
  crcStep 0x00000002 = 0x00000001 ∧ crcStep 0x80000000 = 0x40000000 ∧
  crcStep 0xFFFFFFFF = 0x92477CDF ∧ crcStep 0xFFFFFFFE = 0x7FFFFFFF ∧
  crcStep 0xDB710641 = 0x80000000 ∧ crcStep 0xFFFFFFCE = 0x7FFFFFE7

/-- R102: the engine step is linear over GF(2), and with it STEP8 and UPD. -/
def Obligations.EngineStepIsLinear : Prop :=
  (∀ a b : Word, crcStep (a ^^^ b) = crcStep a ^^^ crcStep b) ∧ crcStep 0 = 0 ∧
  (∀ a b : Word, crcStep8 (a ^^^ b) = crcStep8 a ^^^ crcStep8 b) ∧
  (∀ (c : Word) (b : Byte), crcUpd c b = crcStep8 c ^^^ crcStep8 (zext32 b))

/-- R103: STEP8, UPD and FOLD are the compositions the spec names, with its corner cases and example. -/
def Obligations.CompositionsOfTheStep : Prop :=
  (∀ c : Word, crcStep8 c = crcStep^[8] c) ∧
  (∀ (c : Word) (b : Byte), crcUpd c b = crcStep^[8] (crcAbsorb c b)) ∧
  (∀ (c : Word), crcFold c [] = c) ∧
  (∀ (c : Word) (b : Byte) (bs : List Byte), crcFold c (b :: bs) = crcFold (crcUpd c b) bs) ∧
  crcUpd 0x00000000 0x00 = 0x00000000 ∧ crcUpd 0xFFFFFFFF 0xFF = 0x00FFFFFF ∧
  crcStep8 0x12345600 = 0x00123456 ∧
  (List.range 9).map (fun k => crcStep^[k] (crcAbsorb 0xFFFFFFFF 0x00)) =
    [0xFFFFFFFF, 0x92477CDF, 0xA49B3D4F, 0xBFF51D87, 0xB2420DE3, 0xB49985D1, 0xB7F441C8, 0x5BFA20E4,
      0x2DFD1072]

/-- R104: FINALXOR is the one's complement; it forms the `result` output and is never written back. -/
def Obligations.FinalXorComplements : Prop :=
  (∀ c : Word, crcFinalXor c = c ^^^ 0xFFFFFFFF) ∧ (∀ c : Word, crcFinalXor c = ~~~c) ∧
  (∀ c : Word, crcFinalXor (crcFinalXor c) = c) ∧
  crcFinalXor 0xFFFFFFFF = 0x00000000 ∧ crcFinalXor 0x340BC6D9 = 0xCBF43926 ∧
  (∀ s : State, s.resultValid = true → s.result = crcFinalXor s.crc) ∧
  (∀ s : State, ∃ t, exec .finalize s = .next t ∧ t.crc = s.crc)

/-- R105: the engine step can be undone, so no two accumulator values merge under STEP8, UPD or FOLD. -/
def Obligations.EngineStepIsBijective : Prop :=
  (∀ c : Word, crcStepInv (crcStep c) = c) ∧ (∀ n : Word, crcStep (crcStepInv n) = n) ∧
  (∀ n : Word, crcStepInv n = if n.getLsbD 31 = true then ((n ^^^ 0xEDB88320) <<< 1) ||| 1 else n <<< 1) ∧
  Function.Bijective crcStep ∧ Function.Bijective crcStep8 ∧
  (∀ b : Byte, Function.Bijective fun c => crcUpd c b) ∧
  (∀ bs : List Byte, Function.Bijective fun c => crcFold c bs)

/-- R106: feeding the bits of the byte one by one, bit 0 first, gives UPD; on the way the two forms differ
by the bits not yet consumed. -/
def Obligations.SerialFormEqualsUpdate : Prop :=
  (∀ (c : Word) (b : Byte), crcSerial b c [0, 1, 2, 3, 4, 5, 6, 7] = crcUpd c b) ∧
  (∀ (c : Word) (b : Byte) (k : Nat), k ≤ 8 →
    crcStep^[k] (crcAbsorb c b) = crcSerial b c (List.range k) ^^^ (zext32 b >>> k)) ∧
  crcStep (crcAbsorb 0xFFFFFFFF 0x31) = 0x7FFFFFE7 ∧
  crcSerial 0x31 0xFFFFFFFF [0] = 0x7FFFFFFF ∧ crcUpd 0xFFFFFFFF 0x31 = 0x7C231048

/-- R107: the table form agrees with the bit-serial form on every accumulator and byte. -/
def Obligations.TableFormEqualsUpdate : Prop :=
  (∀ (c : Word) (b : Byte), crcUpd c b = crcUpdByTable c b) ∧
  (∀ (c : Word) (b : Byte), crcUpd c b = (0x00#8 ++ c.extractLsb' 8 24) ^^^
    crcStep8 (zext32 ((c ^^^ zext32 b).extractLsb' 0 8))) ∧
  [0x00#8, 0x01, 0x02, 0x03, 0x04, 0x08, 0x10, 0x20, 0x40, 0x80, 0xFF].map crcTable =
    [0x00000000, 0x77073096, 0xEE0E612C, 0x990951BA, 0x076DC419, 0x0EDB8832, 0x1DB71064, 0x3B6E20C8,
      0x76DC4190, 0xEDB88320, 0x2D02EF8D]

/-! ## compute_crc32 (42_transaction_contract.md) -/

/-- R150: compute_crc32 is CTH's loop, written out. -/
def Obligations.ChecksumIsTheLoop : Prop :=
  ∀ bs : List Byte,
    computeCrc32 bs = crcFinalXor (crcFold 0xFFFFFFFF bs) ∧
    computeCrc32 bs = (bs.foldl (fun (crc : Word) (b : Byte) =>
      (List.range 8).foldl (fun (crc : Word) _ => if crc.getLsbD 0 = true then (crc >>> 1) ^^^ 0xEDB88320 else crc >>> 1)
        (crc ^^^ b.setWidth 32)) (0xFFFFFFFF : Word)) ^^^ 0xFFFFFFFF

/-- R154: splitting a message anywhere and carrying the accumulator across changes nothing. -/
def Obligations.IncrementalEquivalence : Prop :=
  (∀ (c : Word) (s1 s2 : List Byte), crcFold c (s1 ++ s2) = crcFold (crcFold c s1) s2) ∧
  (∀ s1 s2 : List Byte, computeCrc32 (s1 ++ s2) = crcFinalXor (crcFold (crcFold 0xFFFFFFFF s1) s2)) ∧
  (∀ s1 : List Byte, crcFold 0xFFFFFFFF s1 = ~~~(computeCrc32 s1))

/-- R157: the three checksums CTH fixes. -/
def Obligations.ChecksumsTheSourceFixes : Prop :=
  computeCrc32 [] = 0x00000000 ∧ computeCrc32 [0x00] = 0xD202EF8D ∧
  computeCrc32 [0x31, 0x32, 0x33, 0x34, 0x35, 0x36, 0x37, 0x38, 0x39] = 0xCBF43926

/-! ## Encoding (30_encoding.md) -/

/-- R73: the opcode map as match and mask over the 10-bit word, and the canonical words. -/
def Obligations.OpcodeMap : Prop :=
  (∀ w : Command,
    (w &&& 0x300 = 0x000 → decode w = .init) ∧
    (w &&& 0x300 = 0x100 → decode w = .update (w.extractLsb' 0 8)) ∧
    (w &&& 0x300 = 0x200 → decode w = .finalize) ∧
    (w &&& 0x300 = 0x300 → decode w = .reserved (w.extractLsb' 0 8))) ∧
  encode .init = 0x000 ∧ encode .finalize = 0x200 ∧ (∀ b : Byte, encode (.update b) = 0x100 + b.setWidth 10)

/-- Decode and encode agree: every instruction comes back, and every word that is canonical or of the
reserved opcode. That the reserved opcode keeps its data field is the model's choice
(notes/assumptions/4.md). -/
def Obligations.DecodeAfterEncode : Prop :=
  (∀ i : Instr, decode (encode i) = i) ∧
  (∀ w : Command, encode (decode w) = w ↔ canonicalWord w = true ∨ opField w = 0b11) ∧
  (∀ i : Instr, i.wellFormed = true → canonicalWord (encode i) = true) ∧
  (∀ i j : Instr, encode i = encode j → i = j)

/-- Words of few bits written out from the encoding (95_test_vectors.md V-ENC-1 to V-ENC-9). -/
def Obligations.WordsDecodeAsWritten : Prop :=
  decode 0b0000000000 = .init ∧ decode 0b0010100101 = .init ∧
  decode 0b0100000000 = .update 0x00 ∧ decode 0b0100110001 = .update 0x31 ∧ decode 0b0111111111 = .update 0xFF ∧
  decode 0b1000000000 = .finalize ∧ decode 0b1011111111 = .finalize ∧
  decode 0b1100000000 = .reserved 0x00 ∧ decode 0b1111111111 = .reserved 0xFF

/-- The data field of INIT and of FINALIZE is ignored: whichever of an opcode's 256 words is offered, in
whatever state, the next state is the same. -/
def Obligations.DataOfInitAndFinalizeIgnored : Prop :=
  ∀ (s : State) (rst valid : Bool) (d e : Byte),
    step (s.drive ⟨rst, valid, 0b00#2 ++ d⟩) = step (s.drive ⟨rst, valid, 0b00#2 ++ e⟩) ∧
    step (s.drive ⟨rst, valid, 0b10#2 ++ d⟩) = step (s.drive ⟨rst, valid, 0b10#2 ++ e⟩) ∧
    step (s.drive ⟨rst, valid, 0b11#2 ++ d⟩) = step (s.drive ⟨rst, valid, 0b11#2 ++ e⟩)

/-- R75: when a command is transferred, which one, and that every other offer leaves no trace. -/
def Obligations.HandshakeTransfersExactly : Prop :=
  (∀ (s : State) (i : Inputs) (w : Command), (s.drive i).arm = .transfer w ↔
    i.rst = false ∧ i.cmdValid = true ∧ s.cmdReady = true ∧ i.cmd = w) ∧
  (∀ (s : State) (rst valid : Bool) (w w' : Command), valid = false ∨ s.cmdReady = false ∨ rst = true →
    step (s.drive ⟨rst, valid, w⟩) = step (s.drive ⟨rst, valid, w'⟩)) ∧
  (∀ (s : State) (valid : Bool) (w : Command), s.cmdReady = false →
    step (s.drive ⟨false, valid, w⟩) = step (s.drive ⟨false, false, w⟩)) ∧
  (∀ s : State, s.cmdReady = true ↔ s.cnt = 0)

/-! ## The edge function and the commands (41_commands.md) -/

/-- R120: the edge function, written out as the spec writes it. It is total: every edge has a next state. -/
def Obligations.EdgeFunction : Prop :=
  ∀ (s : State) (i : Inputs), ∃ t, step (s.drive i) = .next t ∧ t.inputs = s.inputs ∧
    (t.crc, t.cnt.val, t.st, t.ecode) =
      if i.rst = true then (0xFFFFFFFF, 0, Status.fresh, ECode.none)
      else if s.cnt.val ≠ 0 then (crcStep s.crc, s.cnt.val - 1, s.st, s.ecode)
      else if i.cmdValid = false then (s.crc, s.cnt.val, s.st, s.ecode)
      else if s.ecode ≠ .none then (s.crc, s.cnt.val, s.st, s.ecode)
      else if i.cmd.extractLsb' 8 2 = 0b00 then (0xFFFFFFFF, s.cnt.val, .fresh, s.ecode)
      else if i.cmd.extractLsb' 8 2 = 0b01 then
        if s.st = .final then (s.crc, s.cnt.val, s.st, .updateAfterFinal)
        else (s.crc ^^^ (i.cmd.extractLsb' 0 8).setWidth 32, 8, .accum, s.ecode)
      else if i.cmd.extractLsb' 8 2 = 0b10 then
        if s.st = .final then (s.crc, s.cnt.val, s.st, .finalizeAfterFinal)
        else (s.crc, s.cnt.val, .final, s.ecode)
      else (s.crc, s.cnt.val, s.st, .reservedOp)

/-- A step runs the decoded instruction. Around it a step does one thing: the edge's inputs are used up.
`withFetchWord` makes the next edge transfer the word. -/
def Obligations.StepRunsDecodedInstruction : Prop :=
  (∀ (s : State) (w : Command), s.arm = .transfer w → step s = exec (decode w) s.tick) ∧
  (∀ (s : State) (nbits w : Nat) (i : Instr), decodeTableWord nbits w = some i →
    step (s.withFetchWord nbits w) = exec i { s with cnt := 0, edge := s.edge + 1 }) ∧
  (∀ s : State, s.tick = { s with inputs := s.inputs.tail, edge := s.edge + 1 })

/-- R121: one engine step per edge while steps are left, whatever the host offers meanwhile; in a sound
state the status is ACCUM and no fault is recorded throughout. -/
def Obligations.EngineStepEdge : Prop :=
  (∀ (s : State) (i : Inputs), i.rst = false → s.cnt ≠ 0 →
    ∃ t, step (s.drive i) = .next t ∧ t.crc = crcStep s.crc ∧ t.cnt.val = s.cnt.val - 1 ∧
      t.st = s.st ∧ t.ecode = s.ecode ∧ t.inputs = s.inputs) ∧
  (∀ s : State, s.Inv → s.cnt ≠ 0 → s.st = .accum ∧ s.ecode = .none) ∧
  (∀ (s : State) (i : Inputs), i.rst = false → s.crc = 0xFFFFFFCE → s.cnt = 8 →
    ∃ t, step (s.drive i) = .next t ∧ t.crc = 0x7FFFFFE7 ∧ t.cnt = 7)

/-- R127: any number of idle edges leave an idle block, and all its outputs, as they were. -/
def Obligations.IdleEdgesChangeNothing : Prop :=
  ∀ (s : State) (is : List Inputs), s.cnt = 0 → (∀ i ∈ is, i.rst = false ∧ i.cmdValid = false) →
    ∃ t, runInputs s is = .next t ∧ t.crc = s.crc ∧ t.cnt = 0 ∧ t.st = s.st ∧ t.ecode = s.ecode ∧
      t.inputs = s.inputs ∧ t.outputs = s.outputs

/-- R122: INIT starts a new transaction from every status, and only an edge at which the engine is idle
transfers it. -/
def Obligations.InitStartsTransaction : Prop :=
  (∀ s : State, s.ecode = .none → exec .init s = .next { s with crc := 0xFFFFFFFF, st := .fresh }) ∧
  (∀ s : State, s.ecode ≠ .none → exec .init s = .next s) ∧
  (∀ s : State, s.Inv → s.st = .fresh → exec .init s = .next s) ∧
  (∀ s t : State, exec .init s = .next t → t.resultValid = false ∧ t.result = 0x00000000) ∧
  (∀ (s : State) (w : Command), decode w = .init → s.cnt ≠ 0 →
    step (s.drive (offer w)) = .next { s with crc := crcStep s.crc, cnt := cntDown s.cnt, edge := s.edge + 1 }) ∧
  (∀ (s : State) (w : Command), decode w = .init → s.cnt = 0 → s.ecode = .none →
    step (s.drive (offer w)) = .next { s with crc := 0xFFFFFFFF, st := .fresh, edge := s.edge + 1 }) ∧
  (∀ (i : Instr) (s t : State), s.ecode = .none → s.st = .final → exec i s = .next t → t.st ≠ .final → i = .init)

/-- R123: UPDATE absorbs its byte and eight engine steps follow; in FINAL it is a protocol fault. -/
def Obligations.UpdateAbsorbsAndSteps : Prop :=
  (∀ (s : State) (b : Byte), s.ecode = .none → s.st ≠ .final →
    exec (.update b) s = .next { s with crc := s.crc ^^^ b.setWidth 32, cnt := 8, st := .accum }) ∧
  (∀ (s : State) (b : Byte), s.ecode = .none → s.st = .final →
    exec (.update b) s = .next { s with ecode := .updateAfterFinal }) ∧
  (∀ (s : State) (b : Byte), s.ecode ≠ .none → exec (.update b) s = .next s) ∧
  (∀ (s : State) (b : Byte) (is : List Inputs), s.cnt = 0 → s.ecode = .none → s.st ≠ .final →
    is.length ≤ 8 → noReset is = true →
    ∃ t, runInputs s (offer (encode (.update b)) :: is) = .next t ∧
      t.crc = crcStep^[is.length] (s.crc ^^^ b.setWidth 32) ∧ (is.length = 8 → t.crc = crcUpd s.crc b) ∧
      t.cnt.val = 8 - is.length ∧ t.st = .accum ∧ t.ecode = .none ∧ (t.cmdReady = true ↔ is.length = 8)) ∧
  (∀ (s : State) (i : Inputs), s.cnt ≠ 0 → i.rst = true → ∃ t, step (s.drive i) = .next t ∧
    (t.crc, t.cnt, t.st, t.ecode) = (0xFFFFFFFF, 0, .fresh, .none)) ∧
  (∀ c : Word, crcUpd c 0x00 = crcStep8 c ∧ (crcUpd c 0x00 = 0x00000000 ↔ c = 0x00000000)) ∧
  crcUpd 0xFFFFFFFF 0x00 = 0x2DFD1072 ∧ crcAbsorb 0xFFFFFFFF 0x31 = 0xFFFFFFCE ∧
  crcUpd 0xFFFFFFFF 0x31 = 0x7C231048

/-- R124: FINALIZE writes the status alone; the complement is formed in the output stage. -/
def Obligations.FinalizeWritesStatusAlone : Prop :=
  (∀ s : State, s.ecode = .none → s.st ≠ .final →
    exec .finalize s = .next { s with st := .final } ∧
      ({ s with st := .final } : State).resultValid = true ∧
      ({ s with st := .final } : State).result = s.crc ^^^ 0xFFFFFFFF) ∧
  (∀ s : State, s.ecode = .none → s.st = .final → exec .finalize s = .next { s with ecode := .finalizeAfterFinal }) ∧
  (∀ s : State, s.ecode ≠ .none → exec .finalize s = .next s ∧ s.resultValid = false) ∧
  (∀ s : State, s.Inv → s.ecode = .none → s.st = .fresh →
    ∃ t, exec .finalize s = .next t ∧ t.resultValid = true ∧ t.result = 0x00000000) ∧
  (∀ (s : State) (i : Inputs) (w : Command), (s.drive i).arm = .transfer w → decode w = .finalize → s.cnt = 0) ∧
  (∀ s t : State, s.st = .final → step s = .next t → t.st ≠ .final →
    s.input.rst = true ∨ (s.input.cmdValid = true ∧ decode s.input.cmd = .init ∧ s.ecode = .none))

/-- R125: the reserved opcode records code 1 in every status, writes nothing else, and hides the result. -/
def Obligations.ReservedRecordsFault : Prop :=
  (∀ (s : State) (d : Byte), s.ecode = .none →
    exec (.reserved d) s = .next { s with ecode := .reservedOp } ∧
      ({ s with ecode := .reservedOp } : State).resultValid = false ∧
      ({ s with ecode := .reservedOp } : State).result = 0x00000000 ∧
      ({ s with ecode := .reservedOp } : State).err = true) ∧
  (∀ (s : State) (d : Byte), s.ecode ≠ .none → exec (.reserved d) s = .next s) ∧
  (∀ (s : State) (d : Byte), s.cnt = 0 → s.ecode = .none →
    step (s.drive (offer (0b11#2 ++ d))) = .next { s with ecode := .reservedOp, edge := s.edge + 1 })

/-- R126: a frozen block takes every command and discards it. -/
def Obligations.FrozenDiscardsCommands : Prop :=
  (∀ (i : Instr) (s : State), s.ecode ≠ .none → exec i s = .next s) ∧
  (∀ (s : State) (w : Command), s.cnt = 0 → s.ecode ≠ .none → s.cmdReady = true ∧
    (s.drive (offer w)).arm = .transfer w ∧ step (s.drive (offer w)) = .next { s with edge := s.edge + 1 } ∧
    s.resultValid = false ∧ s.result = 0x00000000) ∧
  (∀ s t : State, s.ecode ≠ .none → step s = .next t → t.ecode ≠ s.ecode → s.input.rst = true)

/-- The FRAME of every instruction: what it leaves unchanged. `inputs` and `edge` are the model's own
fields. The block has no memory (20_memory.md R50). -/
def Obligations.InstructionFrames : Prop :=
  ∀ (i : Instr) (s t : State), exec i s = .next t →
    t.inputs = s.inputs ∧ t.edge = s.edge ∧
    (t.crc ≠ s.crc → i = .init ∨ ∃ b, i = .update b) ∧
    (t.cnt ≠ s.cnt → ∃ b, i = .update b) ∧
    (t.st ≠ s.st → i = .init ∨ i = .finalize ∨ ∃ b, i = .update b) ∧
    (t.ecode ≠ s.ecode → i ≠ .init ∧ s.ecode = .none) ∧
    (t.ecode ≠ s.ecode → t.crc = s.crc ∧ t.cnt = s.cnt ∧ t.st = s.st)

/-! ## Protocol faults (60_exceptions.md) -/

/-- R171 and R172: the three causes of a protocol fault, their codes, and that raising one writes `ecode`
alone and hides the result. -/
def Obligations.ProtocolFaultCausesAndEntry : Prop :=
  (∀ (s : State) (i : Inputs) (t : State), step (s.drive i) = .next t → s.ecode = .none → t.ecode ≠ .none →
    i.rst = false ∧ s.cnt = 0 ∧ i.cmdValid = true ∧
    ((i.cmd.extractLsb' 8 2 = 0b11 ∧ t.ecode = .reservedOp) ∨
      (i.cmd.extractLsb' 8 2 = 0b01 ∧ s.st = .final ∧ t.ecode = .updateAfterFinal) ∨
      (i.cmd.extractLsb' 8 2 = 0b10 ∧ s.st = .final ∧ t.ecode = .finalizeAfterFinal)) ∧
    t.crc = s.crc ∧ t.cnt = s.cnt ∧ t.st = s.st ∧
    t.err = true ∧ t.outputs.ecode = t.ecode.code ∧ t.resultValid = false ∧ t.result = 0x00000000 ∧
    t.cmdReady = true ∧ t.outputs.status = s.outputs.status) ∧
  (∀ (s : State) (w : Command), s.cnt = 0 → s.ecode = .none →
    (w.extractLsb' 8 2 = 0b11 →
      step (s.drive (offer w)) = .next { s with ecode := .reservedOp, edge := s.edge + 1 }) ∧
    (w.extractLsb' 8 2 = 0b01 → s.st = .final →
      step (s.drive (offer w)) = .next { s with ecode := .updateAfterFinal, edge := s.edge + 1 }) ∧
    (w.extractLsb' 8 2 = 0b10 → s.st = .final →
      step (s.drive (offer w)) = .next { s with ecode := .finalizeAfterFinal, edge := s.edge + 1 })) ∧
  [ECode.none, .reservedOp, .updateAfterFinal, .finalizeAfterFinal].map ECode.code = [0, 1, 2, 3]

/-- R173: reset first, then an engine step, then idle, then frozen, then decode; the three causes belong to
three different opcodes, so a command raises its own code or none; the first fault wins over any number of
edges without reset. -/
def Obligations.FirstFaultWins : Prop :=
  (∀ (s : State) (i : Inputs) (t : State), step (s.drive i) = .next t →
    i.rst = true ∨ s.cnt ≠ 0 ∨ i.cmdValid = false ∨ s.ecode ≠ .none → t.ecode = .none ∨ t.ecode = s.ecode) ∧
  (∀ (i : Instr) (s t : State), s.ecode = .none → exec i s = .next t → t.ecode ≠ .none →
    (t.ecode = .reservedOp ↔ ∃ d, i = .reserved d) ∧
    (t.ecode = .updateAfterFinal ↔ ∃ b, i = .update b) ∧
    (t.ecode = .finalizeAfterFinal ↔ i = .finalize)) ∧
  (∀ (s : State) (is : List Inputs), s.ecode ≠ .none → noReset is = true →
    ∃ t, runInputs s is = .next t ∧ t.ecode = s.ecode ∧ t.st = s.st)

/-- R174: no command clears `ecode`; a frozen block stays as it is until an edge with `rst = 1`, which
gives the reset state. -/
def Obligations.OnlyResetLeavesAFault : Prop :=
  (∀ (i : Instr) (s t : State), s.ecode ≠ .none → exec i s = .next t → t.ecode = s.ecode) ∧
  (∀ (s : State) (is : List Inputs), s.ecode ≠ .none → s.cnt = 0 → noReset is = true →
    ∃ t, runInputs s is = .next t ∧ (t.crc, t.cnt, t.st, t.ecode) = (s.crc, s.cnt, s.st, s.ecode) ∧
      t.resultValid = false) ∧
  (∀ (s : State) (i : Inputs), s.ecode ≠ .none → i.rst = true →
    ∃ t, step (s.drive i) = .next t ∧ (t.crc, t.cnt, t.st, t.ecode) = (0xFFFFFFFF, 0, .fresh, .none)) ∧
  (∀ s t : State, s.ecode ≠ .none → step s = .next t → t.ecode = .none → s.input.rst = true)

/-- Instances share nothing: an edge of one leaves the others as they are, and edges of two of them can be
taken in either order. Stepping one at a time is the model's choice (notes/assumptions/12.md). -/
def Obligations.InstancesAreIndependent : Prop :=
  (∀ (k : Nat) (sys sys' : List State), stepInstance k sys = .next sys' →
    sys'.length = sys.length ∧ ∀ j, j ≠ k → sys'[j]? = sys[j]?) ∧
  (∀ (j k : Nat) (sys : List State), j ≠ k →
    ∃ a b u, stepInstance j sys = .next a ∧ stepInstance k a = .next u ∧
      stepInstance k sys = .next b ∧ stepInstance j b = .next u)

/-! ## Reset and power-up (10_state.md, 70_reset_and_hazards.md) -/

/-- R32: the reset state and its outputs, after any edge with `rst = 1`. -/
def Obligations.ResetState : Prop :=
  (∀ (s : State) (i : Inputs), i.rst = true → ∃ t, step (s.drive i) = .next t ∧
    (t.crc, t.cnt, t.st, t.ecode) = (0xFFFFFFFF, 0, .fresh, .none) ∧
    t.outputs = ⟨true, 0, false, 0x00000000, false, 0⟩) ∧
  (State.reset.crc, State.reset.cnt, State.reset.st, State.reset.ecode) = (0xFFFFFFFF, 0, .fresh, .none) ∧
  State.reset.outputs = ⟨true, 0, false, 0x00000000, false, 0⟩

/-- R190: reset beats everything and transfers no command; further reset edges keep the reset state; it is
the only event that clears `ecode`, that zeroes `cnt` other than by counting down, and that can abandon an
UPDATE in progress. -/
def Obligations.ResetBeatsEverything : Prop :=
  (∀ (s : State) (valid : Bool) (w : Command), (s.drive ⟨true, valid, w⟩).arm = .reset ∧
    step (s.drive ⟨true, valid, w⟩) =
      .next { s with crc := 0xFFFFFFFF, cnt := 0, st := .fresh, ecode := .none, edge := s.edge + 1 }) ∧
  (∀ (s : State) (is : List Inputs), is ≠ [] → (∀ i ∈ is, i.rst = true) → ∃ t, runInputs s is = .next t ∧
    (t.crc, t.cnt, t.st, t.ecode) = (0xFFFFFFFF, 0, .fresh, .none)) ∧
  (∀ s t : State, step s = .next t → s.input.rst = false →
    (s.ecode ≠ .none → t.ecode ≠ .none) ∧ (t.cnt = 0 → s.cnt.val ≤ 1) ∧
    (s.cnt ≠ 0 → t.crc = crcStep s.crc ∧ t.cnt.val = s.cnt.val - 1))

/-- R193: the reset state is one in which a transaction has begun: an INIT changes nothing in it, and
UPDATE or FINALIZE may come at once. -/
def Obligations.ResetBeginsATransaction : Prop :=
  exec .init State.reset = .next State.reset ∧
  (∀ s t : State, s.cnt = 0 → s.ecode = .none → exec .init s = .next t →
    (t.crc, t.cnt, t.st, t.ecode) = (State.reset.crc, State.reset.cnt, State.reset.st, State.reset.ecode)) ∧
  (∀ b : Byte, ∃ t, exec (.update b) State.reset = .next t ∧ t.ecode = .none ∧ t.st = .accum) ∧
  (∃ t, exec .finalize State.reset = .next t ∧ t.resultValid = true)

/-- Before the first reset the forty bits may be anything; an edge with `rst = 1` leads to the reset state
from all of them, and no other edge has a meaning: the model refuses it by name (10_state.md R33). -/
def Obligations.PowerUpNeedsReset : Prop :=
  ∀ (p : RawBits) (i : Inputs),
    (i.rst = true → powerUpEdge p i = .next State.reset) ∧
    (i.rst = false → powerUpEdge p i = .refused .beforeFirstReset)

/-- The four elements fill forty bits, and exactly the unreachable encodings, `cnt` 9 to 15 and `st` 3,
stand for no state (10_state.md R21, R22, R34). -/
def Obligations.FortyBitsHoldTheState : Prop :=
  (∀ s : State, ∃ t, s.rawBits.state? = some t ∧ (t.crc, t.cnt, t.st, t.ecode) = (s.crc, s.cnt, s.st, s.ecode)) ∧
  (∀ p : RawBits, p.state? = none ↔ 8 < p.cnt.toNat ∨ p.st = 3) ∧
  (∀ (p : RawBits) (s : State), p.state? = some s → s.rawBits = p)

/-! ## Outputs and invariants (10_state.md) -/

/-- R25: every output as a function of the state. -/
def Obligations.OutputsOfTheState : Prop :=
  ∀ s : State,
    s.outputs.cmdReady = decide (s.cnt = 0) ∧
    s.outputs.status = (match s.st with | .fresh => 0 | .accum => 1 | .final => 2) ∧
    s.outputs.ecode = (match s.ecode with
      | .none => 0 | .reservedOp => 1 | .updateAfterFinal => 2 | .finalizeAfterFinal => 3) ∧
    s.outputs.err = decide (s.ecode ≠ .none) ∧
    s.outputs.resultValid = decide (s.st = .final ∧ s.ecode = .none) ∧
    s.outputs.result = if s.st = .final ∧ s.ecode = .none then s.crc ^^^ 0xFFFFFFFF else 0x00000000

/-- Nothing of the accumulator shows while the result is not valid: states that differ in nothing else
have the same outputs (10_state.md R29). -/
def Obligations.AccumulatorIsHidden : Prop :=
  ∀ (s : State) (c : Word), s.resultValid = false → ({ s with crc := c } : State).outputs = s.outputs

/-- The reset state meets the invariants. -/
def Obligations.ResetMeetsInvariants : Prop := State.reset.Inv

/-- R31: the six invariants, kept by every edge from every state that meets them, whatever the inputs, so
that they hold in every state reached from the reset state. -/
def Obligations.EveryEdgeKeepsInvariants : Prop :=
  (∀ s t : State, s.Inv → step s = .next t → t.Inv) ∧
  (∀ (s t : State) (is : List Inputs), (s.crc, s.cnt, s.st, s.ecode) = (0xFFFFFFFF, 0, .fresh, .none) →
    runInputs s is = .next t →
    t.cnt.val ≤ 8 ∧ t.st.code ≠ 3 ∧ (t.st = .final → t.cnt = 0) ∧
    (t.st = .fresh → t.crc = 0xFFFFFFFF ∧ t.cnt = 0) ∧ (t.ecode ≠ .none → t.cnt = 0) ∧
    (t.ecode.code = 2 ∨ t.ecode.code = 3 → t.st = .final))

/-- The three ends of a run exclude each other in a sound state (70_reset_and_hazards.md R203): a faulted
run has no result, and a run in flight has neither a result nor a fault. -/
def Obligations.EndsOfARunExcludeEachOther : Prop :=
  ∀ s : State, s.Inv →
    (s.faulted = true → s.succeeded = false ∧ s.inFlight = false) ∧
    (s.inFlight = true → s.succeeded = false ∧ s.faulted = false ∧ s.outputs.status = 1) ∧
    (s.succeeded = true → s.faulted = false ∧ s.inFlight = false)

/-! ## The command level and whole transactions -/

/-- R129 and R131: a transferred command reaches its entry of the command-level table, at once or, for an
executed UPDATE, after its eight engine steps, whatever the host offers meanwhile; a reset on the way
abandons it. -/
def Obligations.CommandLevelRefinement : Prop :=
  (∀ (s : State) (w : Command), s.cnt = 0 → ¬(s.ecode = .none ∧ s.st ≠ .final ∧ opField w = 0b01) →
    ∃ t, step (s.drive (offer w)) = .next t ∧ t.cnt = 0 ∧
      (⟨t.crc, t.st, t.ecode⟩ : CmdState) = cmdLevel (decode w) ⟨s.crc, s.st, s.ecode⟩) ∧
  (∀ (s : State) (b : Byte) (is : List Inputs), s.cnt = 0 → s.ecode = .none → s.st ≠ .final →
    is.length ≤ 8 → noReset is = true →
    ∃ t, runInputs s (offer (encode (.update b)) :: is) = .next t ∧
      t.crc = crcStep^[is.length] (s.crc ^^^ zext32 b) ∧ t.cnt.val = 8 - is.length ∧ t.st = .accum ∧
      t.ecode = .none ∧ (t.cmdReady = true ↔ is.length = 8) ∧
      (is.length = 8 →
        (⟨t.crc, t.st, t.ecode⟩ : CmdState) = cmdLevel (.update b) ⟨s.crc, s.st, s.ecode⟩)) ∧
  (∀ (s : State) (b : Byte) (is : List Inputs) (i : Inputs), s.cnt = 0 → is.length < 8 → noReset is = true →
    i.rst = true → ∃ t, runInputs s (offer (encode (.update b)) :: is ++ [i]) = .next t ∧
      (t.crc, t.cnt, t.st, t.ecode) = (0xFFFFFFFF, 0, .fresh, .none)) ∧
  (∀ (s : State) (w : Command), s.cnt = 0 → s.ecode = .none → s.st ≠ .final → decode w = .finalize →
    ∃ t, step (s.drive (offer w)) = .next t ∧ t.resultValid = true ∧ t.result = s.crc ^^^ 0xFFFFFFFF) ∧
  (∀ (c : Word) (st : Status) (b d : Byte),
    cmdLevel .init ⟨c, st, .none⟩ = ⟨0xFFFFFFFF, .fresh, .none⟩ ∧
    cmdLevel (.update b) ⟨c, st, .none⟩ =
      (if st = .final then ⟨c, .final, .updateAfterFinal⟩ else ⟨crcUpd c b, .accum, .none⟩) ∧
    cmdLevel .finalize ⟨c, st, .none⟩ =
      (if st = .final then ⟨c, .final, .finalizeAfterFinal⟩ else ⟨c, .final, .none⟩) ∧
    cmdLevel (.reserved d) ⟨c, st, .none⟩ = ⟨c, st, .reservedOp⟩) ∧
  (∀ (i : Instr) (v : CmdState), v.ecode ≠ .none → cmdLevel i v = v)

/-- R132: wherever a run without reset stands between commands, it stands at the fold of the command-level
table over the commands transferred so far; idle edges and refused offers make no difference. -/
def Obligations.IdleInsensitivity : Prop :=
  (∀ (s t : State) (is : List Inputs), s.cnt = 0 → noReset is = true → runInputs s is = .next t → t.cnt = 0 →
    (⟨t.crc, t.st, t.ecode⟩ : CmdState) =
      cmdLevelAll ⟨s.crc, s.st, s.ecode⟩ ((transferred s is).map decode)) ∧
  (∀ (s s' t t' : State) (is is' : List Inputs), s.cnt = 0 → s'.cnt = 0 →
    (s.crc, s.st, s.ecode) = (s'.crc, s'.st, s'.ecode) → noReset is = true → noReset is' = true →
    transferred s is = transferred s' is' →
    runInputs s is = .next t → runInputs s' is' = .next t' → t.cnt = 0 → t'.cnt = 0 →
    (t.crc, t.st, t.ecode) = (t'.crc, t'.st, t'.ecode)) ∧
  (∀ (s : State) (w : Command), transferred s (waitAndOffer s w) = [w] ∧ (waitAndOffer s w).length ≤ 9)

/-- R151: the transaction theorem. From the reset state, or by an INIT from any idle state with no fault:
once UPDATE of each byte and then FINALIZE have been transferred, and no other command, the outputs are the
checksum of the bytes, however many idle edges and refused offers there were before, between and after. -/
def Obligations.TransactionTheorem : Prop :=
  ∀ (s t : State) (is : List Inputs) (bs : List Byte), noReset is = true → runInputs s is = .next t →
    ((s.crc, s.cnt, s.st, s.ecode) = (0xFFFFFFFF, 0, .fresh, .none) ∧
        (transferred s is).map decode = bs.map .update ++ [.finalize] ∨
      s.cnt = 0 ∧ s.ecode = .none ∧
        (transferred s is).map decode = .init :: (bs.map .update ++ [.finalize])) →
    t.st = .final ∧ t.ecode = .none ∧ t.cnt = 0 ∧ t.crc = crcFold 0xFFFFFFFF bs ∧
      t.resultValid = true ∧ t.err = false ∧ t.result = computeCrc32 bs

/-- In every state a run reaches, resets and misuse included: a result that is valid is the checksum of
exactly the bytes of the UPDATEs accepted since the last reset or accepted INIT, in order
(20_memory.md R58 d, 70_reset_and_hazards.md R203). `bs` are the bytes before the run. -/
def Obligations.ValidResultIsChecksumOfAcceptedBytes : Prop :=
  ∀ (s t : State) (is : List Inputs) (bs : List Byte), s.Inv →
    (s.ecode = .none → crcSteps s.cnt.val s.crc = crcFold 0xFFFFFFFF bs) → runInputs s is = .next t →
    t.resultValid = true → t.result = computeCrc32 (messageBytes bs s is)

/-- R152: the empty message, by INIT or by reset and FINALIZE; the host tells its checksum from a result
that is not valid by `result_valid`. -/
def Obligations.EmptyMessage : Prop :=
  computeCrc32 [] = 0x00000000 ∧
  (∀ s : State, s.cnt = 0 → s.ecode = .none →
    ∃ t, runInputs s [offer (encode .init), offer (encode .finalize)] = .next t ∧
      t.resultValid = true ∧ t.result = 0x00000000) ∧
  (∀ s : State, ∃ t, runInputs s [resetInputs, offer (encode .finalize)] = .next t ∧
      t.resultValid = true ∧ t.result = 0x00000000) ∧
  (∀ s : State, s.resultValid = false → s.result = 0x00000000)

/-- R153: the result of a transaction, begun by an INIT or by a reset (R12), depends on its bytes alone: not
on what came before, nor on how many edges it took, nor, among several instances in any interleaving, on what
the other instances are and do (R180). Stepping instances one at a time is the model's choice
(notes/assumptions/12.md). -/
def Obligations.ResultDependsOnBytesAlone : Prop :=
  (∀ (s s' : State) (is is' : List Inputs) (bs : List Byte),
    IsTransaction s is bs → IsTransaction s' is' bs →
    ∃ t t', runInputs s is = .next t ∧ runInputs s' is' = .next t' ∧
      t.outputs = t'.outputs ∧ t.resultValid = true) ∧
  (∀ (k k' : Nat) (sys sys' : List State) (es es' : List (Nat × Inputs)) (s s' : State) (bs : List Byte),
    sys[k]? = some s → sys'[k']? = some s' →
    IsTransaction s (inputsOf k es) bs → IsTransaction s' (inputsOf k' es') bs →
    ∃ u u' t t', runInstances sys es = .next u ∧ runInstances sys' es' = .next u' ∧
      u[k]? = some t ∧ u'[k']? = some t' ∧ t.outputs = t'.outputs ∧ t.resultValid = true) ∧
  (∀ (j k : Nat) (sys : List State), j ≠ k →
    ∃ sys', stepInstance j sys = .next sys' ∧ sys'[k]? = sys[k]?)

/-- R155: nothing of one transaction survives the INIT of the next, but a recorded fault. -/
def Obligations.NothingCarriesOver : Prop :=
  (∀ s t : State, s.cnt = 0 → s.ecode = .none → exec .init s = .next t →
    (t.crc, t.cnt, t.st, t.ecode) = (0xFFFFFFFF, 0, .fresh, .none)) ∧
  (∀ (s : State) (i : Inputs) (w : Command), (s.drive i).arm = .transfer w → s.cnt = 0) ∧
  (∀ s t : State, s.ecode ≠ .none → exec .init s = .next t → t.ecode = s.ecode) ∧
  (∀ (s t : State) (i : Inputs), i.rst = true → step (s.drive i) = .next t →
    (t.crc, t.cnt, t.st, t.ecode) = (0xFFFFFFFF, 0, .fresh, .none))

/-- R159: a transaction, and every beginning of one, records no fault, whatever its bytes. -/
def Obligations.TransactionsNeverFault : Prop :=
  (∀ (s t : State) (is : List Inputs) (bs : List Byte), s.cnt = 0 → s.ecode = .none → s.st ≠ .final →
    noReset is = true → runInputs s is = .next t →
    (transferred s is).map decode <+: bs.map .update ++ [.finalize] → t.ecode = .none ∧ t.err = false) ∧
  (∀ (s t : State) (is : List Inputs) (bs : List Byte), s.cnt = 0 → s.ecode = .none →
    noReset is = true → runInputs s is = .next t →
    (transferred s is).map decode <+: messageCommands bs → t.ecode = .none ∧ t.err = false)

/-! ## Edge counts (70_reset_and_hazards.md, 42_transaction_contract.md) -/

/-- R200: how many edges each event occupies the block for. -/
def Obligations.EdgeCounts : Prop :=
  (∀ (s : State) (w : Command) (is : List Inputs), s.cnt = 0 → s.ecode = .none → s.st ≠ .final →
    opField w = 0b01 → noReset is = true → is.length ≤ 8 →
    ∃ t, runInputs s (offer w :: is) = .next t ∧ (t.cmdReady = true ↔ is.length = 8)) ∧
  (∀ (s : State) (w : Command), s.cnt = 0 → ¬(s.ecode = .none ∧ s.st ≠ .final ∧ opField w = 0b01) →
    ∃ t, step (s.drive (offer w)) = .next t ∧ t.cmdReady = true) ∧
  (∀ (s : State) (w : Command), s.cnt = 0 →
    ∃ t, step (s.drive ⟨false, false, w⟩) = .next t ∧ t.cmdReady = true) ∧
  (∀ (s : State) (valid : Bool) (w : Command),
    ∃ t, step (s.drive ⟨true, valid, w⟩) = .next t ∧ t.cmdReady = true)

/-- The host's only wait, for `cmd_ready`, ends by itself within eight edges: after exactly as many edges
as there are engine steps left, and not before (70_reset_and_hazards.md R196). -/
def Obligations.ReadyWithinEightEdges : Prop :=
  ∀ (s : State) (is : List Inputs), noReset is = true → is.length ≤ s.cnt.val →
    ∃ t, runInputs s is = .next t ∧ t.cnt.val = s.cnt.val - is.length ∧
      (t.cmdReady = true ↔ is.length = s.cnt.val) ∧ s.cnt.val ≤ 8

/-- R201: the host that offers each command as early as possible sends a message of `n` bytes in `9n + 2`
edges from INIT to FINALIZE, `9n + 1` when a reset starts it, and the result is then valid. -/
def Obligations.EarliestMessage : Prop :=
  (∀ bs : List Byte, (messageInputs bs).length = 9 * bs.length + 2) ∧
  (∀ (s : State) (bs : List Byte), s.cnt = 0 → s.ecode = .none →
    (transferred s (messageInputs bs)).map decode = messageCommands bs ∧
    ∃ t, runInputs s (messageInputs bs) = .next t ∧ t.resultValid = true ∧ t.result = computeCrc32 bs) ∧
  (∀ (s : State) (bs : List Byte), ∃ t,
    runInputs s (resetInputs :: (bs.flatMap updateInputs ++ [offer (encode .finalize)])) = .next t ∧
    (bs.flatMap updateInputs ++ [offer (encode .finalize)]).length = 9 * bs.length + 1 ∧
    t.resultValid = true ∧ t.result = computeCrc32 bs) ∧
  (∀ bs : List Byte, bs.length = 4194304 → (messageInputs bs).length = 37748738)

/-- No host is faster: a message of `n` bytes needs at least `9n + 1` edges (42_transaction_contract.md
R160). -/
def Obligations.MessageNeedsNineEdgesPerByte : Prop :=
  ∀ (s : State) (is : List Inputs) (bs : List Byte), s.cnt = 0 → s.ecode = .none → s.st ≠ .final →
    noReset is = true → (transferred s is).map decode = bs.map .update ++ [.finalize] →
    9 * bs.length + 1 ≤ is.length

/-! ## The host: scripts and runs (30_encoding.md) -/

/-- The pseudo-command CRC32 gives the checksum of its bytes from every state without a fault, engine steps
left over or not (30_encoding.md R79). -/
def Obligations.PseudoCommandGivesChecksum : Prop :=
  ∀ (s : State) (bs : List Byte), s.ecode = .none →
    ∃ t, runLine s (.crc32 bs) = .next t ∧ t.cnt = 0 ∧ t.resultValid = true ∧ t.result = computeCrc32 bs

/-- Inserting or removing an IDLE line in a script never changes what a later EXPECT line sees of
`status`, `result_valid`, `result`, `err` or `ecode` (30_encoding.md R80). -/
def Obligations.IdleLinesDoNotShow : Prop :=
  ∀ (s : State) (before after : List Line) (n : Nat), s.Inv →
    ∃ x y t u, runScript s (before ++ .idle n :: after) = .next (x, t) ∧
      runScript s (before ++ after) = .next (y, u) ∧
      (x.filter fun e => e.1 ∈ [Observed.status, .resultValid, .result, .err, .ecode]) =
        y.filter fun e => e.1 ∈ [Observed.status, .resultValid, .result, .err, .ecode]

/-- Lines of text and the words they stand for (95_test_vectors.md V-ENC-1 to V-ENC-13). -/
def Obligations.TextAssemblesToWords : Prop :=
  (["INIT", "UPDATE 0x00", "UPDATE 0x31 ; one", "UPDATE 255", "FINALIZE", ".cmd 0x0A5", ".cmd 0x3ff",
      "UPDATES \"hi\"", "UPDATES \"\"", "CRC32 \"a\"", "CRC32", "CRC32 0x61 0x62"].map
    fun l => (parseLine l.toList).map fun r => r.map Line.words) =
    [.ok (some [0x000]), .ok (some [0x100]), .ok (some [0x131]), .ok (some [0x1FF]), .ok (some [0x200]),
      .ok (some [0x0A5]), .ok (some [0x3FF]), .ok (some [0x168, 0x169]), .ok (some []),
      .ok (some [0x000, 0x161, 0x200]), .ok (some [0x000, 0x200]), .ok (some [0x000, 0x161, 0x162, 0x200])] ∧
  parseLine "UPDATE 256".toList = .error .outOfRange ∧ parseLine "update 1".toList = .error .unknownMnemonic ∧
  parseLine ".cmd 0x400".toList = .error .outOfRange ∧ parseLine "  ; nothing".toList = .ok none

/-- A run of `runInputs` is a run of the host's interface: the inputs of the edges are the first the state
names. -/
def Obligations.RunsAreTheInterfacesRuns : Prop :=
  ∀ (s : State) (is : List Inputs),
    core.run is.length { s with inputs := is ++ s.inputs } = runInputs s is
end

