-- ==== Sys2Proof/Laws/Datapath.lean ====
section
/-! SUPPORT. The defining equations of the datapath's repeated steps. -/

namespace Sys2Proof.Machine

@[simp] theorem crcSteps_zero (c : Word) : crcSteps 0 c = c := rfl

theorem crcSteps_succ (n : Nat) (c : Word) : crcSteps (n + 1) c = crcSteps n (crcStep c) := rfl

/-- A last step may be taken after the others. -/
theorem crcSteps_step (n : Nat) (c : Word) : crcSteps n (crcStep c) = crcStep (crcSteps n c) := by
  induction n generalizing c with
  | zero => rfl
  | succ n ih => rw [crcSteps_succ, ih, crcSteps_succ]

@[simp] theorem crcFold_nil (c : Word) : crcFold c [] = c := rfl

@[simp] theorem crcFold_cons (c : Word) (b : Byte) (bs : List Byte) :
    crcFold c (b :: bs) = crcFold (crcUpd c b) bs := rfl

/-- UPD as the edges of one UPDATE make it. -/
theorem crcUpd_eq_steps (c : Word) (b : Byte) : crcUpd c b = crcSteps 8 (crcAbsorb c b) := rfl

end Sys2Proof.Machine
end

