-- ==== Sys2Proof/Laws/State.lean ====
section
/-! SUPPORT. One lemma per field per update of the state, so that no later proof unfolds one. -/

namespace Sys2Proof.Machine

variable (s : State)

@[simp] theorem State.tick_crc : s.tick.crc = s.crc := rfl
@[simp] theorem State.tick_cnt : s.tick.cnt = s.cnt := rfl
@[simp] theorem State.tick_st : s.tick.st = s.st := rfl
@[simp] theorem State.tick_ecode : s.tick.ecode = s.ecode := rfl
@[simp] theorem State.tick_inputs : s.tick.inputs = s.inputs.tail := rfl
@[simp] theorem State.tick_edge : s.tick.edge = s.edge + 1 := rfl

@[simp] theorem State.drive_crc (i : Inputs) : (s.drive i).crc = s.crc := rfl
@[simp] theorem State.drive_cnt (i : Inputs) : (s.drive i).cnt = s.cnt := rfl
@[simp] theorem State.drive_st (i : Inputs) : (s.drive i).st = s.st := rfl
@[simp] theorem State.drive_ecode (i : Inputs) : (s.drive i).ecode = s.ecode := rfl
@[simp] theorem State.drive_inputs (i : Inputs) : (s.drive i).inputs = i :: s.inputs := rfl
@[simp] theorem State.drive_edge (i : Inputs) : (s.drive i).edge = s.edge := rfl

@[simp] theorem State.applyReset_crc : s.applyReset.crc = Config.initVal := rfl
@[simp] theorem State.applyReset_cnt : s.applyReset.cnt = 0 := rfl
@[simp] theorem State.applyReset_st : s.applyReset.st = .fresh := rfl
@[simp] theorem State.applyReset_ecode : s.applyReset.ecode = .none := rfl
@[simp] theorem State.applyReset_inputs : s.applyReset.inputs = s.inputs := rfl
@[simp] theorem State.applyReset_edge : s.applyReset.edge = s.edge := rfl

@[simp] theorem State.engineStep_crc : s.engineStep.crc = crcStep s.crc := rfl
@[simp] theorem State.engineStep_cnt : s.engineStep.cnt = cntDown s.cnt := rfl
@[simp] theorem State.engineStep_st : s.engineStep.st = s.st := rfl
@[simp] theorem State.engineStep_ecode : s.engineStep.ecode = s.ecode := rfl
@[simp] theorem State.engineStep_inputs : s.engineStep.inputs = s.inputs := rfl
@[simp] theorem State.engineStep_edge : s.engineStep.edge = s.edge := rfl

@[simp] theorem State.startTransaction_crc : s.startTransaction.crc = Config.initVal := rfl
@[simp] theorem State.startTransaction_cnt : s.startTransaction.cnt = s.cnt := rfl
@[simp] theorem State.startTransaction_st : s.startTransaction.st = .fresh := rfl
@[simp] theorem State.startTransaction_ecode : s.startTransaction.ecode = s.ecode := rfl
@[simp] theorem State.startTransaction_inputs : s.startTransaction.inputs = s.inputs := rfl
@[simp] theorem State.startTransaction_edge : s.startTransaction.edge = s.edge := rfl

@[simp] theorem State.absorb_crc (b : Byte) : (s.absorb b).crc = crcAbsorb s.crc b := rfl
@[simp] theorem State.absorb_cnt (b : Byte) : (s.absorb b).cnt = 8 := rfl
@[simp] theorem State.absorb_st (b : Byte) : (s.absorb b).st = .accum := rfl
@[simp] theorem State.absorb_ecode (b : Byte) : (s.absorb b).ecode = s.ecode := rfl
@[simp] theorem State.absorb_inputs (b : Byte) : (s.absorb b).inputs = s.inputs := rfl
@[simp] theorem State.absorb_edge (b : Byte) : (s.absorb b).edge = s.edge := rfl

@[simp] theorem State.finish_crc : s.finish.crc = s.crc := rfl
@[simp] theorem State.finish_cnt : s.finish.cnt = s.cnt := rfl
@[simp] theorem State.finish_st : s.finish.st = .final := rfl
@[simp] theorem State.finish_ecode : s.finish.ecode = s.ecode := rfl
@[simp] theorem State.finish_inputs : s.finish.inputs = s.inputs := rfl
@[simp] theorem State.finish_edge : s.finish.edge = s.edge := rfl

@[simp] theorem State.raiseFault_crc (code : ECode) : (s.raiseFault code).crc = s.crc := rfl
@[simp] theorem State.raiseFault_cnt (code : ECode) : (s.raiseFault code).cnt = s.cnt := rfl
@[simp] theorem State.raiseFault_st (code : ECode) : (s.raiseFault code).st = s.st := rfl
@[simp] theorem State.raiseFault_ecode (code : ECode) : (s.raiseFault code).ecode = code := rfl
@[simp] theorem State.raiseFault_inputs (code : ECode) : (s.raiseFault code).inputs = s.inputs := rfl
@[simp] theorem State.raiseFault_edge (code : ECode) : (s.raiseFault code).edge = s.edge := rfl

@[simp] theorem State.offerNext_crc (w : Command) : (s.offerNext w).crc = s.crc := rfl
@[simp] theorem State.offerNext_cnt (w : Command) : (s.offerNext w).cnt = 0 := rfl
@[simp] theorem State.offerNext_st (w : Command) : (s.offerNext w).st = s.st := rfl
@[simp] theorem State.offerNext_ecode (w : Command) : (s.offerNext w).ecode = s.ecode := rfl
@[simp] theorem State.offerNext_inputs (w : Command) : (s.offerNext w).inputs = offer w :: s.inputs := rfl
@[simp] theorem State.offerNext_edge (w : Command) : (s.offerNext w).edge = s.edge := rfl

@[simp] theorem State.reset_crc : State.reset.crc = Config.initVal := rfl
@[simp] theorem State.reset_cnt : State.reset.cnt = 0 := rfl
@[simp] theorem State.reset_st : State.reset.st = .fresh := rfl
@[simp] theorem State.reset_ecode : State.reset.ecode = .none := rfl

/-- Two states with the same fields are the same. -/
theorem State.eq_of_fields {s t : State} (hc : s.crc = t.crc) (hn : s.cnt = t.cnt) (hs : s.st = t.st)
    (he : s.ecode = t.ecode) (hi : s.inputs = t.inputs) (hg : s.edge = t.edge) : s = t := by
  cases s; cases t; simp_all

end Sys2Proof.Machine
end

