-- ==== Sys2Proof/Laws/Ops.lean ====
section
/-! SUPPORT. What the shared operations can do: the inputs of an edge, the choice of arm, the discard of a
command by a frozen block, the count of engine steps. -/

namespace Sys2Proof.Machine

variable (s : State)

@[simp] theorem State.input_drive (i : Inputs) : (s.drive i).input = i := rfl

@[simp] theorem State.tick_drive (i : Inputs) : (s.drive i).tick = { s with edge := s.edge + 1 } := rfl

@[simp] theorem State.input_offerNext (w : Command) : (s.offerNext w).input = offer w := rfl

@[simp] theorem State.tick_offerNext (w : Command) :
    (s.offerNext w).tick = { s with cnt := 0, edge := s.edge + 1 } := rfl

@[simp] theorem offer_rst (w : Command) : (offer w).rst = false := rfl
@[simp] theorem offer_cmdValid (w : Command) : (offer w).cmdValid = true := rfl
@[simp] theorem offer_cmd (w : Command) : (offer w).cmd = w := rfl
@[simp] theorem idleInputs_rst : idleInputs.rst = false := rfl
@[simp] theorem idleInputs_cmdValid : idleInputs.cmdValid = false := rfl
@[simp] theorem resetInputs_rst : resetInputs.rst = true := rfl

theorem State.ifLive_of_live {s : State} (t : State) (h : s.ecode = .none) : s.ifLive t = t := by
  simp [State.ifLive, h]

theorem State.ifLive_of_faulted {s : State} (t : State) (h : s.ecode ≠ .none) : s.ifLive t = s := by
  simp [State.ifLive, h]

/-- Arm A is chosen exactly at an edge with `rst = 1`. -/
theorem State.arm_eq_reset : s.arm = .reset ↔ s.input.rst = true := by
  unfold State.arm; split_ifs <;> simp_all

/-- Arm B is chosen exactly at an edge with `rst = 0` at which engine steps are left. -/
theorem State.arm_eq_engine : s.arm = .engine ↔ s.input.rst = false ∧ s.cnt ≠ 0 := by
  unfold State.arm; split_ifs <;> simp_all

/-- Arm C is chosen exactly at an edge at which nothing is reset, left over or offered. -/
theorem State.arm_eq_idle :
    s.arm = .idle ↔ s.input.rst = false ∧ s.cnt = 0 ∧ s.input.cmdValid = false := by
  unfold State.arm; split_ifs <;> simp_all

/-- Arms D and E are chosen exactly at an edge of a handshake, for the word on `cmd`. -/
theorem State.arm_eq_transfer (w : Command) :
    s.arm = .transfer w ↔
      s.input.rst = false ∧ s.cnt = 0 ∧ s.input.cmdValid = true ∧ s.input.cmd = w := by
  unfold State.arm; split_ifs <;> simp_all

/-- Counting down takes one off a count that is not yet 0. -/
theorem cntDown_val (n : Fin 9) : (cntDown n).val = n.val - 1 := rfl

theorem State.cmdReady_iff : s.cmdReady = true ↔ s.cnt = 0 := by simp [State.cmdReady]

theorem State.resultValid_iff : s.resultValid = true ↔ s.st = .final ∧ s.ecode = .none := by
  simp [State.resultValid]

end Sys2Proof.Machine
end

