-- ==== Sys2Proof/Laws/Step.lean ====
section
/-! SUPPORT. What a step can do, arm by arm, and how runs compose. -/

namespace Sys2Proof.Machine

theorem step_of_reset {s : State} (h : s.arm = .reset) : step s = .next s.tick.applyReset := by
  simp only [step, h]

theorem step_of_engine {s : State} (h : s.arm = .engine) : step s = .next s.tick.engineStep := by
  simp only [step, h]

theorem step_of_idle {s : State} (h : s.arm = .idle) : step s = .next s.tick := by
  simp only [step, h]

theorem step_of_transfer {s : State} {w : Command} (h : s.arm = .transfer w) :
    step s = exec (decode w) s.tick := by
  simp only [step, h]

/-- The writes of a command that is executed. -/
def execWrites (s : State) : Instr → State
  | .init => s.startTransaction
  | .update b => if s.st = .final then s.raiseFault .updateAfterFinal else s.absorb b
  | .finalize => if s.st = .final then s.raiseFault .finalizeAfterFinal else s.finish
  | .reserved _ => s.raiseFault .reservedOp

/-- The next state of a transferred command: its writes while no fault is recorded, else none. -/
def execState (i : Instr) (s : State) : State := s.ifLive (execWrites s i)

theorem execState_of_live (i : Instr) {s : State} (h : s.ecode = .none) : execState i s = execWrites s i :=
  State.ifLive_of_live _ h

theorem execState_of_faulted (i : Instr) {s : State} (h : s.ecode ≠ .none) : execState i s = s :=
  State.ifLive_of_faulted _ h

/-- Every transferred command answers a next state. -/
theorem exec_eq (i : Instr) (s : State) : exec i s = .next (execState i s) := by
  cases i <;> rfl

/-- The next state of an edge driven with `i`. -/
def nextState (s : State) (i : Inputs) : State :=
  match (s.drive i).arm with
  | .reset => { s with edge := s.edge + 1 }.applyReset
  | .engine => { s with edge := s.edge + 1 }.engineStep
  | .idle => { s with edge := s.edge + 1 }
  | .transfer w => execState (decode w) { s with edge := s.edge + 1 }

/-- Every edge answers a next state. -/
theorem step_drive (s : State) (i : Inputs) : step (s.drive i) = .next (nextState s i) := by
  unfold step nextState
  cases (s.drive i).arm <;> simp [exec_eq]

theorem nextState_of_reset {s : State} {i : Inputs} (h : i.rst = true) :
    nextState s i = { s with edge := s.edge + 1 }.applyReset := by
  simp only [nextState, (State.arm_eq_reset (s.drive i)).2 h]

theorem nextState_of_engine {s : State} {i : Inputs} (h : i.rst = false) (hc : s.cnt ≠ 0) :
    nextState s i = { s with edge := s.edge + 1 }.engineStep := by
  simp only [nextState, (State.arm_eq_engine (s.drive i)).2 ⟨h, hc⟩]

theorem nextState_of_idle {s : State} {i : Inputs} (h : i.rst = false) (hc : s.cnt = 0)
    (hv : i.cmdValid = false) : nextState s i = { s with edge := s.edge + 1 } := by
  simp only [nextState, (State.arm_eq_idle (s.drive i)).2 ⟨h, hc, hv⟩]

theorem nextState_of_live {s : State} {i : Inputs} (h : i.rst = false) (hc : s.cnt = 0)
    (hv : i.cmdValid = true) (he : s.ecode = .none) :
    nextState s i = execWrites { s with edge := s.edge + 1 } (decode i.cmd) := by
  simp only [nextState, (State.arm_eq_transfer (s.drive i) i.cmd).2 ⟨h, hc, hv, rfl⟩]
  exact execState_of_live _ he

theorem nextState_of_frozen {s : State} {i : Inputs} (h : i.rst = false) (hc : s.cnt = 0)
    (hv : i.cmdValid = true) (he : s.ecode ≠ .none) : nextState s i = { s with edge := s.edge + 1 } := by
  simp only [nextState, (State.arm_eq_transfer (s.drive i) i.cmd).2 ⟨h, hc, hv, rfl⟩]
  exact execState_of_faulted _ he

/-- The four kinds of edge, by the inputs and the count. -/
theorem edge_cases (s : State) (i : Inputs) :
    i.rst = true ∨ (i.rst = false ∧ s.cnt ≠ 0) ∨ (i.rst = false ∧ s.cnt = 0 ∧ i.cmdValid = false) ∨
      (i.rst = false ∧ s.cnt = 0 ∧ i.cmdValid = true) := by
  cases i.rst <;> cases i.cmdValid <;> by_cases h : s.cnt = 0 <;> simp [h]

/-- Four parts of a state compared at once. -/
theorem four_eq {α β γ δ : Type} {a a' : α} {b b' : β} {c c' : γ} {d d' : δ} :
    (a, b, c, d) = (a', b', c', d') ↔ a = a' ∧ b = b' ∧ c = c' ∧ d = d' := by
  simp [Prod.ext_iff]

/-- An edge whose inputs the state names is that edge driven. -/
theorem drive_of_inputs {s : State} {i : Inputs} {is : List Inputs} (h : s.inputs = i :: is) :
    s = ({ s with inputs := is } : State).drive i := by
  cases s; simp_all [State.drive]

/-- Any step, whatever the inputs, answers as an edge driven with them. -/
theorem step_eq_drive (s : State) :
    step s = step (({ s with inputs := s.inputs.tail } : State).drive s.input) := by
  obtain ⟨c, n, v, e, is, g⟩ := s
  cases is <;> rfl

/-- INVERSION: a step is the next state of its inputs. -/
theorem step_eq (s : State) :
    step s = .next (nextState { s with inputs := s.inputs.tail } s.input) := by
  rw [step_eq_drive, step_drive]

@[simp] theorem runInputs_nil (s : State) : runInputs s [] = .next s := rfl

theorem runInputs_cons (s : State) (i : Inputs) (is : List Inputs) :
    runInputs s (i :: is) = runInputs (nextState s i) is := by
  simp [runInputs, step_drive]

/-- The state after a run. -/
def runState (s : State) (is : List Inputs) : State := is.foldl nextState s

/-- Every run answers a state. -/
theorem runInputs_eq (s : State) (is : List Inputs) : runInputs s is = .next (runState s is) := by
  induction is generalizing s with
  | nil => rfl
  | cons i is ih => rw [runInputs_cons, ih]; rfl

theorem runState_append (s : State) (is js : List Inputs) :
    runState s (is ++ js) = runState (runState s is) js := by
  simp [runState]

@[simp] theorem transferred_nil (s : State) : transferred s [] = [] := rfl

theorem transferred_cons (s : State) (i : Inputs) (is : List Inputs) :
    transferred s (i :: is) =
      match (s.drive i).arm with
      | .transfer w => w :: transferred (nextState s i) is
      | .reset => transferred (nextState s i) is
      | .engine => transferred (nextState s i) is
      | .idle => transferred (nextState s i) is := by
  cases h : (s.drive i).arm <;> simp [transferred, step_drive, h]

end Sys2Proof.Machine
end

