-- ==== Sys2Proof/Laws/CommandLevel.lean ====
section
/-! SUPPORT. The command-level state a state stands at, under the writes of one command. -/

namespace Sys2Proof.Machine

/-- Between commands the command-level state is read off. -/
theorem settled_of_idle {s : State} (hc : s.cnt = 0) : s.settled = ⟨s.crc, s.st, s.ecode⟩ := by
  simp [State.settled, hc]

/-- A block with a fault recorded is left alone by the table. -/
theorem cmdLevel_of_faulted (i : Instr) {v : CmdState} (h : v.ecode ≠ .none) : cmdLevel i v = v := by
  obtain ⟨c, st, e⟩ := v
  cases e <;> simp at h <;> cases i <;> rfl

/-- The writes of a command at an idle block, its engine steps counted in, are its row of the table. -/
theorem settled_execWrites {s : State} (i : Instr) (hc : s.cnt = 0) (he : s.ecode = .none) :
    (execWrites s i).settled = cmdLevel i s.settled := by
  obtain ⟨c, n, st, e, is, g⟩ := s
  simp only at hc he
  subst hc he
  cases i <;> cases st <;> rfl

end Sys2Proof.Machine
end

