-- ==== Sys2Proof/Laws/Instances.lean ====
section
/-! SUPPORT. What an edge of one of several instances can do, and that a run of them is a run of each. -/

namespace Sys2Proof.Machine

/-- An edge of instance `k` answers the next state of that instance, in its place. -/
theorem stepInstance_eq (k : Nat) (sys : List State) :
    stepInstance k sys =
      .next (sys.modify k fun s => nextState { s with inputs := s.inputs.tail } s.input) := by
  unfold stepInstance
  cases h : sys[k]? with
  | none => simp [List.modify_eq_self (List.getElem?_eq_none_iff.1 h)]
  | some s => simp [step_eq, List.modify_eq_set_getElem?, h]

@[simp] theorem runInstances_nil (sys : List State) : runInstances sys [] = .next sys := rfl

theorem runInstances_cons (sys : List State) (k : Nat) (i : Inputs) (es : List (Nat × Inputs)) :
    runInstances sys ((k, i) :: es) = runInstances (sys.modify k (nextState · i)) es := by
  have h : (sys.modify k (·.drive i)).modify k
      (fun s => nextState { s with inputs := s.inputs.tail } s.input) = sys.modify k (nextState · i) := by
    rw [List.modify_modify_eq]; rfl
  simp [runInstances, stepInstance_eq, h]

@[simp] theorem inputsOf_nil (k : Nat) : inputsOf k [] = [] := rfl

theorem inputsOf_cons (k j : Nat) (i : Inputs) (es : List (Nat × Inputs)) :
    inputsOf k ((j, i) :: es) = if j = k then i :: inputsOf k es else inputsOf k es := by
  by_cases h : j = k <;> simp [inputsOf, h]

/-- A run of several instances takes each of them to where its own inputs alone take it. -/
theorem runInstances_eq (sys : List State) (es : List (Nat × Inputs)) :
    ∃ u, runInstances sys es = .next u ∧
      ∀ k, u[k]? = sys[k]?.map fun s => runState s (inputsOf k es) := by
  induction es generalizing sys with
  | nil => exact ⟨sys, rfl, fun k => by simp [runState]⟩
  | cons e es ih =>
    obtain ⟨j, i⟩ := e
    obtain ⟨u, hu, hk⟩ := ih (sys.modify j (nextState · i))
    refine ⟨u, by rw [runInstances_cons, hu], fun k => ?_⟩
    rw [hk, List.getElem?_modify, inputsOf_cons]
    by_cases h : j = k <;> simp [h, runState, Function.comp_def]

end Sys2Proof.Machine
end

