-- ==== Sys2Proof/Laws/PerInstr.lean ====
section
/-! SUPPORT. Statements made per instruction, each about the instruction as a term. -/

namespace Sys2Proof.Laws.TableRow

/-- The word of an instruction lies in its row of spec/opcode_table.json: under the mask 0x300 it is the
row's `match` (30_encoding.md R73). -/
def Statement (i : Instr) : Prop := encode i &&& 0x300 = tableMatch i

theorem init : Statement .init := by unfold Statement; decide

theorem update (b : Byte) : Statement (.update b) := by
  revert b; unfold Statement; decide

theorem finalize : Statement .finalize := by unfold Statement; decide

theorem reserved (data : Byte) : Statement (.reserved data) := by
  revert data; unfold Statement; decide

end Sys2Proof.Laws.TableRow
end

