-- ==== Sys2Proof/Tests/Slice0.lean ====
section
/-! SUPPORT. The model's own tests, each against a vector of 95_test_vectors.md or an example of a rule, and
for every obligation with hypotheses a state and operands that meet them. -/

namespace Sys2Proof.Tests

open Sys2Proof Sys2Proof.Machine

/-- A state with nothing named of the coming inputs. -/
def at4 (crc : Word) (cnt : Fin 9) (st : Status) (ecode : ECode) : State := ⟨crc, cnt, st, ecode, [], 0⟩

/-- The block's four elements after an edge that has a next state. -/
def after (o : Host.Outcome State Fault Refusal) : Option (Word × Fin 9 × Status × ECode) :=
  match o with
  | .next t => some (t.crc, t.cnt, t.st, t.ecode)
  | .fault _ => none
  | .refused _ => none

/-- One edge driven with these inputs. -/
def edge (s : State) (rst valid : Bool) (cmd : Command) : Option (Word × Fin 9 × Status × ECode) :=
  after (step (s.drive ⟨rst, valid, cmd⟩))

/-! ## Checks that refuse -/

/-- The reserved opcode is nothing software may send (30_encoding.md R76). -/
theorem test_reserved_not_wellFormed : (Instr.reserved 0x00).wellFormed = false := by decide
theorem test_update_wellFormed : (Instr.update 0xFF).wellFormed = true := by decide
/-- Non-canonical words (V-ENC-6, V-ENC-7), and a word of the reserved opcode (V-ENC-8). -/
theorem test_noncanonical_init : canonicalWord 0x0A5 = false := by decide
theorem test_noncanonical_finalize : canonicalWord 0x2FF = false := by decide
theorem test_noncanonical_reserved : canonicalWord 0x300 = false := by decide
/-- Assembly errors (V-ENC-10; 30_encoding.md R78, R79). -/
theorem test_byte_out_of_range : parseLine "UPDATE 256".toList = .error .outOfRange := by decide
theorem test_word_out_of_range : parseLine ".cmd 0x400".toList = .error .outOfRange := by decide
theorem test_lower_case_refused : parseLine "init".toList = .error .unknownMnemonic := by decide
theorem test_text_not_printable : parseLine "UPDATES \"\t\"".toList = .error .notPrintable := by decide
theorem test_text_unclosed : parseLine "UPDATES \"a".toList = .error .unclosedText := by decide
theorem test_one_hex_digit_refused : parseLine "UPDATE 0x1".toList = .error .badOperands := by decide

/-! ## Words written out bit by bit (30_encoding.md R73; V-ENC-1 to V-ENC-9) -/

theorem test_decode_init : decode 0b0000000000 = .init := by decide
theorem test_decode_update : decode 0b0100110001 = .update 0x31 := by decide
theorem test_decode_finalize : decode 0b1000000000 = .finalize := by decide
theorem test_decode_reserved : decode 0b1110100101 = .reserved 0xA5 := by decide
theorem test_encode_update : encode (.update 0xFF) = 0b0111111111 := by decide
/-- The rows of spec/opcode_table.json, in whole bytes. -/
theorem test_table_rows : [0x000, 0x100, 0x200, 0x300].map (decodeTableWord 16) =
    [some .init, some (.update 0), some .finalize, some (.reserved 0)] := by decide
/-- The row's word runs as the first instruction after reset. -/
theorem test_first_after_reset : [0x000, 0x1FF, 0x200, 0x300].map
      (fun w => after (step (State.reset.withFetchWord 16 w))) =
    [some (0xFFFFFFFF, 0, .fresh, .none), some (0xFFFFFF00, 8, .accum, .none),
      some (0xFFFFFFFF, 0, .final, .none), some (0xFFFFFFFF, 0, .fresh, .reservedOp)] := by decide

/-! ## One edge (95_test_vectors.md section 6, section 5) -/

/-- V-EDGE-2. -/
theorem test_reset_beats_command :
    edge (at4 0x340BC6D9 0 .final .updateAfterFinal) true true 0x131 =
      some (0xFFFFFFFF, 0, .fresh, .none) := by decide
/-- V-EDGE-4: a FINALIZE offered while busy is ignored. -/
theorem test_engine_step_beats_offer :
    edge (at4 0xFFFFFFCE 8 .accum .none) false true 0x200 = some (0x7FFFFFE7, 7, .accum, .none) := by decide
/-- V-EDGE-6. -/
theorem test_idle : edge (at4 0x7C231048 0 .accum .none) false false 0x3FF =
    some (0x7C231048, 0, .accum, .none) := by decide
/-- V-EDGE-13. -/
theorem test_init_leaves_final :
    edge (at4 0x7C231048 0 .final .none) false true 0x000 = some (0xFFFFFFFF, 0, .fresh, .none) := by decide
/-- V-CMD-13: INIT does not clear the fault code (V-NEG-15). -/
theorem test_init_frozen : edge (at4 0x340BC6D9 0 .final .updateAfterFinal) false true 0x000 =
    some (0x340BC6D9, 0, .final, .updateAfterFinal) := by decide
/-- V-EDGE-9. -/
theorem test_update_absorbs :
    edge (at4 0x7C231048 0 .accum .none) false true 0x132 = some (0x7C23107A, 8, .accum, .none) := by decide
/-- V-EDGE-12. -/
theorem test_update_in_final :
    edge (at4 0x7C231048 0 .final .none) false true 0x1AA =
      some (0x7C231048, 0, .final, .updateAfterFinal) := by decide
/-- V-EDGE-10. -/
theorem test_finalize :
    edge (at4 0x7C231048 0 .accum .none) false true 0x200 = some (0x7C231048, 0, .final, .none) := by decide
/-- V-EDGE-11. -/
theorem test_finalize_in_final :
    edge (at4 0x7C231048 0 .final .none) false true 0x200 =
      some (0x7C231048, 0, .final, .finalizeAfterFinal) := by decide
/-- V-CMD-11. -/
theorem test_reserved :
    edge (at4 0x7C231048 0 .accum .none) false true 0x3A5 = some (0x7C231048, 0, .accum, .reservedOp) := by decide
/-- V-CMD-10: the code is 1 in FINAL too. -/
theorem test_reserved_in_final :
    edge (at4 0x340BC6D9 0 .final .none) false true 0x300 = some (0x340BC6D9, 0, .final, .reservedOp) := by decide
/-- V-OUT-3, V-OUT-4, V-OUT-5. -/
theorem test_outputs_hidden : (at4 0x7C231048 0 .accum .none).outputs = ⟨true, 1, false, 0, false, 0⟩ := by decide
theorem test_outputs_valid :
    (at4 0x340BC6D9 0 .final .none).outputs = ⟨true, 2, true, 0xCBF43926, false, 0⟩ := by decide
theorem test_outputs_faulted :
    (at4 0x340BC6D9 0 .final .finalizeAfterFinal).outputs = ⟨true, 2, false, 0, true, 3⟩ := by decide
/-- V-UPD-6 and V-CRC-16 against V-CRC-17: the order of bytes matters (20_memory.md R51). -/
theorem test_upd : crcUpd 0x12345678 0x9A = 0x4E16B702 := by decide
theorem test_byte_order : computeCrc32 [0x00, 0x01] = 0x36DE2269 ∧ computeCrc32 [0x01, 0x00] = 0x58C223BE := by
  decide +kernel
/-- An EXPECT line sees the port after the preceding line's last edge (30_encoding.md R80; P2). -/
theorem test_expect :
    (match runScript State.reset [.command .finalize, .expect .resultValid 1, .expect .st 2] with
      | .next (seen, _) => seen
      | _ => []) = [(.resultValid, 1, 1), (.st, 2, 2)] := by decide

/-! ## Hypotheses that are met -/

/-- ACCUM, two engine steps left. -/
def busy : State := at4 0x57FA8EC2 2 .accum .none
/-- ACCUM, idle. -/
def idle : State := at4 0x7C231048 0 .accum .none
/-- FINAL. -/
def done : State := at4 0x340BC6D9 0 .final .none
/-- FINAL, frozen. -/
def frozen : State := at4 0x340BC6D9 0 .final .updateAfterFinal

theorem busy_inv : busy.Inv := by constructor <;> decide
theorem idle_inv : idle.Inv := by constructor <;> decide
theorem done_inv : done.Inv := by constructor <;> decide
theorem frozen_inv : frozen.Inv := by constructor <;> decide
theorem fresh_inv : (at4 0xFFFFFFFF 0 .fresh .none).Inv := by constructor <;> decide

/-- The topmost bit in the clause on bits 0 to 30, one of the places XORed and one not. -/
theorem witness_EngineStepBitByBit :
    (30 < 31 ∧ 30 ∈ [30, 29, 27, 26, 24, 23, 21, 20, 19, 15, 9, 8, 5]) ∧
      (0 < 31 ∧ 0 ∉ [30, 29, 27, 26, 24, 23, 21, 20, 19, 15, 9, 8, 5]) := by decide

theorem witness_SerialFormEqualsUpdate : (0 ≤ 8 ∧ 8 ≤ 8) ∧
    crcSerial 0xFF 0xFFFFFFFF (List.range 8) = 0x00FFFFFF := by decide

theorem witness_OpcodeMap :
    (0x0FF : Command) &&& 0x300 = 0x000 ∧ (0x100 : Command) &&& 0x300 = 0x100 ∧
      (0x2FF : Command) &&& 0x300 = 0x200 ∧ (0x300 : Command) &&& 0x300 = 0x300 := by decide

theorem witness_DecodeAfterEncode :
    (Instr.update 0xFF).wellFormed = true ∧ encode (.reserved 0xFF) = encode (decode 0x3FF) := by decide

theorem witness_FinalXorComplements : done.resultValid = true := by decide

theorem witness_HandshakeTransfersExactly :
    (busy.cmdReady = false ∧ idle.cmdReady = true) ∧ (idle.drive (offer 0x200)).arm = .transfer 0x200 := by decide

theorem witness_StepRunsDecodedInstruction :
    (idle.drive (offer 0x1FF)).arm = .transfer 0x1FF ∧
      decodeTableWord 16 0x1FF = some (.update 0xFF) := by decide

theorem witness_EngineStepEdge :
    (∃ s : State, s.Inv ∧ s.cnt ≠ 0) ∧
      (∃ (s : State) (i : Inputs), i.rst = false ∧ s.crc = 0xFFFFFFCE ∧ s.cnt = 8) :=
  ⟨⟨busy, busy_inv, by decide⟩, at4 0xFFFFFFCE 8 .accum .none, offer 0x200, by decide⟩

theorem witness_IdleEdgesChangeNothing :
    idle.cnt = 0 ∧ ∀ i ∈ [idleInputs, ⟨false, false, 0x3FF⟩], i.rst = false ∧ i.cmdValid = false := by decide

theorem witness_InitStartsTransaction :
    done.ecode = .none ∧ frozen.ecode ≠ .none ∧
      (∃ s : State, s.Inv ∧ s.st = .fresh) ∧ (∃ t, exec .init done = .next t) ∧
      (decode 0x0A5 = .init ∧ busy.cnt ≠ 0) ∧ (decode 0x0A5 = .init ∧ done.cnt = 0 ∧ done.ecode = .none) ∧
      (∃ t, exec .init done = .next t ∧ done.ecode = .none ∧ done.st = .final ∧ t.st ≠ .final) :=
  ⟨by decide, by decide, ⟨_, fresh_inv, rfl⟩, ⟨_, rfl⟩, by decide, by decide, _, rfl, by decide⟩

theorem witness_UpdateAbsorbsAndSteps :
    (idle.ecode = .none ∧ idle.st ≠ .final) ∧ (done.ecode = .none ∧ done.st = .final) ∧ frozen.ecode ≠ .none ∧
      (idle.cnt = 0 ∧ (List.replicate 8 (offer 0x200)).length ≤ 8 ∧
        noReset (List.replicate 8 (offer 0x200)) = true) ∧
      (busy.cnt ≠ 0 ∧ resetInputs.rst = true) := by decide

theorem witness_FinalizeWritesStatusAlone :
    (idle.ecode = .none ∧ idle.st ≠ .final) ∧ (done.ecode = .none ∧ done.st = .final) ∧ frozen.ecode ≠ .none ∧
      (∃ s : State, s.Inv ∧ s.ecode = .none ∧ s.st = .fresh) ∧
      ((idle.drive (offer 0x2FF)).arm = .transfer 0x2FF ∧ decode 0x2FF = .finalize) ∧
      (∃ t, step (done.drive (offer 0x000)) = .next t ∧ (done.drive (offer 0x000)).st = .final ∧ t.st ≠ .final) :=
  ⟨by decide, by decide, by decide, ⟨_, fresh_inv, by decide⟩, by decide, _, rfl, by decide⟩

theorem witness_ReservedRecordsFault :
    done.ecode = .none ∧ frozen.ecode ≠ .none ∧ (idle.cnt = 0 ∧ idle.ecode = .none) := by decide

theorem witness_FrozenDiscardsCommands :
    (frozen.cnt = 0 ∧ frozen.ecode ≠ .none) ∧
      (∃ t, step (frozen.drive resetInputs) = .next t ∧ (frozen.drive resetInputs).ecode ≠ .none ∧
        t.ecode ≠ (frozen.drive resetInputs).ecode) :=
  ⟨by decide, _, rfl, by decide⟩

/-- Each instruction at a state in which it changes what its frame lets it change. -/
theorem witness_InstructionFrames :
    (∃ t, exec .init done = .next t ∧ t.crc ≠ done.crc ∧ t.st ≠ done.st) ∧
      (∃ t, exec (.update 0xFF) (at4 0xFFFFFFFF 0 .fresh .none) = .next t ∧ t.cnt ≠ 0) ∧
      (∃ t, exec .finalize done = .next t ∧ t.ecode ≠ done.ecode) ∧
      (∃ t, exec (.reserved 0) idle = .next t ∧ t.ecode ≠ idle.ecode) :=
  ⟨⟨_, rfl, by decide⟩, ⟨_, rfl, by decide⟩, ⟨_, rfl, by decide⟩, ⟨_, rfl, by decide⟩⟩

theorem witness_ProtocolFaultCausesAndEntry :
    (∃ t, step (done.drive (offer 0x100)) = .next t ∧ done.ecode = .none ∧ t.ecode ≠ .none) ∧
      (done.cnt = 0 ∧ done.ecode = .none ∧ done.st = .final) ∧
      (0x300 : Command).extractLsb' 8 2 = 0b11 ∧ (0x1FF : Command).extractLsb' 8 2 = 0b01 ∧
      (0x200 : Command).extractLsb' 8 2 = 0b10 :=
  ⟨⟨_, rfl, by decide⟩, by decide⟩

theorem witness_FirstFaultWins :
    (∃ t, step (busy.drive (offer 0x300)) = .next t ∧ busy.cnt ≠ 0) ∧
      (∃ t, exec (.reserved 0x00) idle = .next t ∧ idle.ecode = .none ∧ t.ecode = .reservedOp) ∧
      (∃ t, exec (.update 0x31) done = .next t ∧ done.ecode = .none ∧ t.ecode = .updateAfterFinal) ∧
      (∃ t, exec .finalize done = .next t ∧ done.ecode = .none ∧ t.ecode = .finalizeAfterFinal) ∧
      (frozen.ecode ≠ .none ∧ noReset [offer 0x300, idleInputs] = true) :=
  ⟨⟨_, rfl, by decide⟩, ⟨_, rfl, by decide⟩, ⟨_, rfl, by decide⟩, ⟨_, rfl, by decide⟩, by decide⟩

theorem witness_OnlyResetLeavesAFault :
    (∃ t, exec .init frozen = .next t ∧ frozen.ecode ≠ .none) ∧
      (frozen.ecode ≠ .none ∧ frozen.cnt = 0 ∧ noReset [offer 0x000] = true) ∧
      (frozen.ecode ≠ .none ∧ resetInputs.rst = true) ∧
      (∃ t, step (frozen.drive resetInputs) = .next t ∧ t.ecode = .none) :=
  ⟨⟨_, rfl, by decide⟩, by decide, by decide, _, rfl, rfl⟩

theorem witness_InstancesAreIndependent :
    (∃ sys, stepInstance 0 [done.drive (offer 0x000), idle] = .next sys) ∧ (1 : Nat) ≠ 0 :=
  ⟨⟨_, rfl⟩, by decide⟩

theorem witness_ResetState : (⟨true, true, 0x131⟩ : Inputs).rst = true := by decide

theorem witness_ResetBeatsEverything :
    ([resetInputs, resetInputs] ≠ [] ∧ ∀ i ∈ [resetInputs, resetInputs], i.rst = true) ∧
      (∃ t, step (frozen.drive (offer 0x000)) = .next t ∧ (frozen.drive (offer 0x000)).input.rst = false ∧
        frozen.ecode ≠ .none) ∧
      (∃ t, step ((at4 0xF8462090 1 .accum .none).drive idleInputs) = .next t ∧ t.cnt = 0) :=
  ⟨by decide, ⟨_, rfl, by decide⟩, _, rfl, rfl⟩

theorem witness_ResetBeginsATransaction :
    ∃ t, exec .init done = .next t ∧ done.cnt = 0 ∧ done.ecode = .none := ⟨_, rfl, by decide⟩

theorem witness_PowerUpNeedsReset : resetInputs.rst = true ∧ idleInputs.rst = false := by decide

/-- The last reachable count and the first unreachable one, and the unreachable status. -/
theorem witness_FortyBitsHoldTheState :
    (∃ s, (⟨0, 8, 2, 3⟩ : RawBits).state? = some s) ∧
      (⟨0, 9, 2, 3⟩ : RawBits).state? = none ∧ (⟨0, 0, 3, 0⟩ : RawBits).state? = none :=
  ⟨⟨_, rfl⟩, by decide⟩

theorem witness_AccumulatorIsHidden : busy.resultValid = false ∧ frozen.resultValid = false := by decide

theorem witness_EveryEdgeKeepsInvariants :
    (∃ s t : State, s.Inv ∧ step s = .next t) ∧
      (∃ t, runInputs State.reset [offer 0x1FF, idleInputs] = .next t) :=
  ⟨⟨busy.drive (offer 0x200), _, by constructor <;> decide, rfl⟩, _, rfl⟩

theorem witness_EndsOfARunExcludeEachOther :
    (∃ s : State, s.Inv ∧ s.faulted = true) ∧ (∃ s : State, s.Inv ∧ s.inFlight = true) ∧
      (∃ s : State, s.Inv ∧ s.succeeded = true) :=
  ⟨⟨frozen, frozen_inv, by decide⟩, ⟨busy, busy_inv, by decide⟩, done, done_inv, by decide⟩

theorem witness_CommandLevelRefinement :
    (done.cnt = 0 ∧ ¬(done.ecode = .none ∧ done.st ≠ .final ∧ opField 0x1FF = 0b01)) ∧
      (idle.cnt = 0 ∧ idle.ecode = .none ∧ idle.st ≠ .final ∧ [idleInputs, offer 0x300].length ≤ 8 ∧
        noReset [idleInputs, offer 0x300] = true) ∧
      (idle.cnt = 0 ∧ [idleInputs].length < 8 ∧ noReset [idleInputs] = true ∧ resetInputs.rst = true) ∧
      (decode 0x2FF = .finalize) ∧ (⟨0, .final, .reservedOp⟩ : CmdState).ecode ≠ .none := by decide

theorem witness_IdleInsensitivity :
    (∃ t, runInputs idle [offer 0x200] = .next t ∧ t.cnt = 0 ∧ idle.cnt = 0 ∧ noReset [offer 0x200] = true) ∧
      (∃ t t', runInputs idle [offer 0x200] = .next t ∧ runInputs idle [idleInputs, offer 0x200] = .next t' ∧
        t.cnt = 0 ∧ t'.cnt = 0 ∧ noReset [idleInputs, offer 0x200] = true ∧
        transferred idle [offer 0x200] = transferred idle [idleInputs, offer 0x200]) :=
  ⟨⟨_, rfl, by decide⟩, _, _, rfl, rfl, by decide⟩

/-- One byte from the reset state with the FINALIZE offered too early and idle edges after it; and an
INIT out of FINAL with no byte. -/
theorem witness_TransactionTheorem :
    (∃ t, runInputs State.reset (offer 0x1FF :: (List.replicate 9 (offer 0x200) ++ [idleInputs])) = .next t ∧
      (transferred State.reset (offer 0x1FF :: (List.replicate 9 (offer 0x200) ++ [idleInputs]))).map decode =
        [0xFF].map .update ++ [.finalize] ∧
      noReset (offer 0x1FF :: (List.replicate 9 (offer 0x200) ++ [idleInputs])) = true) ∧
    (∃ t, runInputs done [offer 0x000, offer 0x200] = .next t ∧ done.cnt = 0 ∧ done.ecode = .none ∧
      (transferred done [offer 0x000, offer 0x200]).map decode = .init :: (([] : List Byte).map .update ++ [.finalize])) :=
  ⟨⟨_, rfl, by decide⟩, _, rfl, by decide⟩

theorem witness_ValidResultIsChecksumOfAcceptedBytes :
    ∃ t, runInputs idle [offer 0x200] = .next t ∧ idle.Inv ∧
      crcSteps idle.cnt.val idle.crc = crcFold 0xFFFFFFFF [0x31] ∧ t.resultValid = true :=
  ⟨_, rfl, idle_inv, by decide⟩

theorem witness_EmptyMessage : (done.cnt = 0 ∧ done.ecode = .none) ∧ frozen.resultValid = false := by decide

/-- Both starts of a transaction, and two instances whose edges interleave. -/
theorem witness_ResultDependsOnBytesAlone :
    IsTransaction done [offer 0x000, offer 0x200] [] ∧
      IsTransaction State.reset (offer 0x1FF :: List.replicate 9 (offer 0x200)) [0xFF] ∧
      [busy, done][1]? = some done ∧
      IsTransaction done (inputsOf 1 [(0, idleInputs), (1, idleInputs), (0, offer 0x300), (1, offer 0x0A5),
        (1, offer 0x2FF), (0, resetInputs)]) [] ∧ (0 : Nat) ≠ 1 :=
  ⟨⟨by decide, .inr (by decide)⟩, ⟨by decide, .inl (by decide)⟩, rfl, ⟨by decide, .inr (by decide)⟩, by decide⟩

theorem witness_NothingCarriesOver :
    (∃ t, exec .init done = .next t ∧ done.cnt = 0 ∧ done.ecode = .none) ∧
      (idle.drive (offer 0x000)).arm = .transfer 0x000 ∧
      (∃ t, exec .init frozen = .next t ∧ frozen.ecode ≠ .none) ∧
      (∃ t, step (frozen.drive resetInputs) = .next t) :=
  ⟨⟨_, rfl, by decide⟩, by decide, ⟨_, rfl, by decide⟩, _, rfl⟩

theorem witness_TransactionsNeverFault :
    (∃ t, runInputs idle [offer 0x1FF] = .next t ∧ idle.cnt = 0 ∧ idle.ecode = .none ∧ idle.st ≠ .final ∧
      noReset [offer 0x1FF] = true ∧
      (transferred idle [offer 0x1FF]).map decode <+: [0xFF].map .update ++ [.finalize]) ∧
    (∃ t, runInputs done [offer 0x000] = .next t ∧ done.cnt = 0 ∧ done.ecode = .none ∧
      (transferred done [offer 0x000]).map decode <+: messageCommands [0xFF]) :=
  ⟨⟨_, rfl, by decide⟩, _, rfl, by decide⟩

theorem witness_EdgeCounts :
    (idle.cnt = 0 ∧ idle.ecode = .none ∧ idle.st ≠ .final ∧ opField 0x100 = 0b01 ∧
      noReset (List.replicate 8 idleInputs) = true ∧ (List.replicate 8 idleInputs).length ≤ 8) ∧
      (done.cnt = 0 ∧ ¬(done.ecode = .none ∧ done.st ≠ .final ∧ opField 0x100 = 0b01)) := by decide

theorem witness_ReadyWithinEightEdges :
    noReset (List.replicate 8 (offer 0x200)) = true ∧
      (List.replicate 8 (offer 0x200)).length ≤ (at4 0 8 .accum .none).cnt.val := by decide

theorem witness_EarliestMessage :
    (done.cnt = 0 ∧ done.ecode = .none) ∧ (∃ bs : List Byte, bs.length = 4194304) :=
  ⟨by decide, List.replicate 4194304 0, List.length_replicate ..⟩

theorem witness_MessageNeedsNineEdgesPerByte :
    idle.cnt = 0 ∧ idle.ecode = .none ∧ idle.st ≠ .final ∧
      noReset (updateInputs 0xFF ++ [offer 0x200]) = true ∧
      (transferred idle (updateInputs 0xFF ++ [offer 0x200])).map decode = [0xFF].map .update ++ [.finalize] := by
  decide +kernel

theorem witness_PseudoCommandGivesChecksum : busy.ecode = .none := by decide

theorem witness_IdleLinesDoNotShow : ∃ s : State, s.Inv := ⟨busy, busy_inv⟩

end Sys2Proof.Tests
end

section
/-! SUPPORT. The invariants of 10_state.md R31 under every write, and the statements on the state, its
reset value, its forty bits and its outputs. -/

namespace Sys2Proof.Machine

/-! ## The invariants under each write of the state -/

namespace State.Inv

variable {s : State}

/-- The invariants speak of the block's four elements alone. -/
theorem of_elements {t : State} (h : s.Inv)
    (heq : (t.crc, t.cnt, t.st, t.ecode) = (s.crc, s.cnt, s.st, s.ecode)) : t.Inv := by
  obtain ⟨hc, hn, hs, he⟩ := four_eq.1 heq
  constructor
  · simpa only [hs, hn] using h.final_idle
  · simpa only [hs, hc, hn] using h.fresh_initial
  · simpa only [he, hn] using h.fault_idle
  · simpa only [he, hs] using h.fault_final

/-- While engine steps are left, the status is ACCUM and no fault is recorded: each of the other cases
has `cnt = 0` by I3, I4 or I5. -/
theorem busy (h : s.Inv) (hn : s.cnt ≠ 0) : s.st = .accum ∧ s.ecode = .none := by
  constructor
  · cases hs : s.st with
    | fresh => exact absurd (h.fresh_initial hs).2 hn
    | accum => rfl
    | final => exact absurd (h.final_idle hs) hn
  · by_contra he
    exact hn (h.fault_idle he)

/-- A state with the four elements of the reset state meets the invariants. -/
theorem of_reset_elements
    (heq : (s.crc, s.cnt, s.st, s.ecode) = (Config.initVal, 0, .fresh, .none)) : s.Inv := by
  obtain ⟨hc, hn, hs, he⟩ := four_eq.1 heq
  constructor <;> simp [hc, hn, hs, he]

/-- In ACCUM with no fault recorded the invariants ask for nothing. -/
theorem of_accum (hs : s.st = .accum) (he : s.ecode = .none) : s.Inv := by
  constructor <;> simp [hs, he]

theorem applyReset (s : State) : s.applyReset.Inv := of_reset_elements rfl

theorem engineStep (h : s.Inv) (hn : s.cnt ≠ 0) : s.engineStep.Inv :=
  have ⟨hs, he⟩ := h.busy hn
  of_accum hs he

theorem startTransaction (hn : s.cnt = 0) (he : s.ecode = .none) : s.startTransaction.Inv :=
  of_reset_elements (four_eq.2 ⟨rfl, hn, rfl, he⟩)

theorem absorb (b : Byte) (he : s.ecode = .none) : (s.absorb b).Inv := of_accum rfl he

theorem finish (hn : s.cnt = 0) (he : s.ecode = .none) : s.finish.Inv := by
  constructor <;> simp [hn, he]

/-- Raising a fault writes the code alone; codes 2 and 3 are raised in FINAL only (60_exceptions.md
R171). -/
theorem raiseFault {code : ECode} (h : s.Inv) (hn : s.cnt = 0)
    (hf : code = .updateAfterFinal ∨ code = .finalizeAfterFinal → s.st = .final) :
    (s.raiseFault code).Inv where
  final_idle _ := hn
  fresh_initial := h.fresh_initial
  fault_idle _ := hn
  fault_final := hf

/-- An executed command keeps the invariants. -/
theorem execWrites (h : s.Inv) (hn : s.cnt = 0) (he : s.ecode = .none) (i : Instr) :
    (execWrites s i).Inv := by
  cases i with
  | init => exact startTransaction hn he
  | update b =>
    by_cases hs : s.st = .final
    · simpa only [Machine.execWrites, if_pos hs] using h.raiseFault hn fun _ => hs
    · simpa only [Machine.execWrites, if_neg hs] using absorb b he
  | finalize =>
    by_cases hs : s.st = .final
    · simpa only [Machine.execWrites, if_pos hs] using h.raiseFault hn fun _ => hs
    · simpa only [Machine.execWrites, if_neg hs] using finish hn he
  | reserved d => exact h.raiseFault hn (by simp)

/-- Every edge keeps the invariants, whatever its inputs. -/
theorem nextState (h : s.Inv) (i : Inputs) : (nextState s i).Inv := by
  have h' : ({ s with edge := s.edge + 1 } : State).Inv := h.of_elements rfl
  obtain hr | ⟨hr, hn⟩ | ⟨hr, hn, hv⟩ | ⟨hr, hn, hv⟩ := edge_cases s i
  · rw [nextState_of_reset hr]
    exact applyReset _
  · rw [nextState_of_engine hr hn]
    exact h'.engineStep hn
  · rw [nextState_of_idle hr hn hv]
    exact h'
  · by_cases he : s.ecode = .none
    · rw [nextState_of_live hr hn hv he]
      exact h'.execWrites hn he _
    · rw [nextState_of_frozen hr hn hv he]
      exact h'

/-- A step keeps the invariants. -/
theorem step {t : State} (h : s.Inv) (hst : step s = .next t) : t.Inv := by
  obtain rfl : Machine.nextState { s with inputs := s.inputs.tail } s.input = t := by
    simpa only [step_eq, Host.Outcome.next.injEq] using hst
  have h' : ({ s with inputs := s.inputs.tail } : State).Inv := h.of_elements rfl
  exact h'.nextState _

/-- Every run keeps the invariants. -/
theorem runState (h : s.Inv) (is : List Inputs) : (runState s is).Inv := by
  induction is generalizing s with
  | nil => exact h
  | cons i is ih => exact ih (h.nextState i)

end State.Inv

/-! ## The encodings of the elements -/

theorem Status.code_ne_three (v : Status) : v.code ≠ 3 := by
  cases v <;> decide

/-- Codes 2 and 3 are those of the two faults raised in FINAL. -/
theorem ECode.code_eq_two_or_three (e : ECode) :
    e.code = 2 ∨ e.code = 3 ↔ e = .updateAfterFinal ∨ e = .finalizeAfterFinal := by
  cases e <;> decide

theorem statusOfCode_eq_some (v : BitVec 2) (st : Status) : statusOfCode v = some st ↔ st.code = v := by
  cases st <;> revert v <;> decide

theorem statusOfCode_eq_none (v : BitVec 2) : statusOfCode v = none ↔ v = 3 := by
  revert v; decide

theorem ecodeOfCode_code (e : ECode) : ecodeOfCode e.code = e := by
  cases e <;> rfl

theorem code_ecodeOfCode (v : BitVec 2) : (ecodeOfCode v).code = v := by
  revert v; decide

/-- Four bits hold a count exactly when they are its number. -/
theorem cntOfCode_eq_some (v : BitVec 4) (n : Fin 9) :
    cntOfCode v = some n ↔ BitVec.ofNat 4 n.val = v := by
  revert v n; decide

theorem cntOfCode_eq_none (v : BitVec 4) : cntOfCode v = none ↔ 8 < v.toNat := by
  simp only [cntOfCode, dite_eq_right_iff, reduceCtorEq, imp_false, Nat.not_lt, Nat.succ_le_iff]

/-- Raw bits stand for a state exactly where the count and the status they hold are encodings of one. -/
theorem RawBits.state?_eq_some (p : RawBits) (s : State) :
    p.state? = some s ↔ ∃ n st, cntOfCode p.cnt = some n ∧ statusOfCode p.st = some st ∧
      { State.reset with crc := p.crc, cnt := n, st := st, ecode := ecodeOfCode p.ecode } = s := by
  unfold RawBits.state?
  cases cntOfCode p.cnt <;> cases statusOfCode p.st <;> simp

theorem RawBits.state?_eq_none (p : RawBits) :
    p.state? = none ↔ cntOfCode p.cnt = none ∨ statusOfCode p.st = none := by
  unfold RawBits.state?
  cases cntOfCode p.cnt <;> cases statusOfCode p.st <;> simp

/-- Reading back the bits of a state gives its four elements. -/
theorem State.state?_rawBits (s : State) :
    s.rawBits.state? = some { State.reset with crc := s.crc, cnt := s.cnt, st := s.st, ecode := s.ecode } :=
  (RawBits.state?_eq_some _ _).2 ⟨s.cnt, s.st, (cntOfCode_eq_some _ _).2 rfl,
    (statusOfCode_eq_some _ _).2 rfl, by rw [State.rawBits, ecodeOfCode_code]⟩

/-- The state that raw bits stand for encodes to those bits. -/
theorem RawBits.rawBits_of_state? {p : RawBits} {s : State} (h : p.state? = some s) : s.rawBits = p := by
  obtain ⟨n, st, hn, hst, rfl⟩ := (RawBits.state?_eq_some p s).1 h
  simp only [State.rawBits, (cntOfCode_eq_some _ _).1 hn, (statusOfCode_eq_some _ _).1 hst,
    code_ecodeOfCode]

/-! ## The output ports -/

/-- The outputs are a function of the four elements. -/
theorem State.outputs_congr {s t : State}
    (heq : (s.crc, s.cnt, s.st, s.ecode) = (t.crc, t.cnt, t.st, t.ecode)) : s.outputs = t.outputs := by
  obtain ⟨hc, hn, hs, he⟩ := four_eq.1 heq
  cases s
  cases t
  subst hc hn hs he
  rfl

/-- A result that is not valid reads as zero. -/
theorem State.result_of_not_valid {s : State} (h : s.resultValid = false) : s.result = 0 := by
  simp [State.result, h]

theorem State.outputs_reset : State.reset.outputs = ⟨true, 0, false, 0x00000000, false, 0⟩ := by
  decide

end Sys2Proof.Machine

namespace Sys2Proof.Proofs

open Sys2Proof Sys2Proof.Machine

/-- Settles O39: the invariants are kept by each write of the edge function, so by a step and by a run;
the reset elements meet them. -/
theorem everyEdgeKeepsInvariants : Obligations.EveryEdgeKeepsInvariants := by
  refine ⟨fun s t h hst => h.step hst, fun s t is hs hrun => ?_⟩
  obtain rfl : runState s is = t := by
    simpa only [runInputs_eq, Host.Outcome.next.injEq] using hrun
  have h : (runState s is).Inv := (State.Inv.of_reset_elements hs).runState is
  exact ⟨Fin.is_le _, Status.code_ne_three _, h.final_idle, h.fresh_initial, h.fault_idle,
    fun hcode => h.fault_final ((ECode.code_eq_two_or_three _).1 hcode)⟩

/-- Settles O35, from the encodings of the count, the status and the fault code. -/
theorem fortyBitsHoldTheState : Obligations.FortyBitsHoldTheState := by
  refine ⟨fun s => ⟨_, s.state?_rawBits, rfl⟩, fun p => ?_, fun p s => RawBits.rawBits_of_state?⟩
  rw [RawBits.state?_eq_none, cntOfCode_eq_none, statusOfCode_eq_none]

/-- Settles O31: a reset edge writes the four elements of the reset state, and they fix the outputs. -/
theorem resetState : Obligations.ResetState := by
  refine ⟨fun s i hi => ⟨_, step_drive s i, ?_⟩, rfl, State.outputs_reset⟩
  rw [nextState_of_reset hi]
  exact ⟨rfl, (State.outputs_congr rfl).trans State.outputs_reset⟩

/-- Settles O34, by the two values of `rst`. -/
theorem powerUpNeedsReset : Obligations.PowerUpNeedsReset := fun _ _ =>
  ⟨fun hr => if_pos hr, fun hr => if_neg (by simp [hr])⟩

/-- Settles O36, port by port. -/
theorem outputsOfTheState : Obligations.OutputsOfTheState := by
  intro s
  have hvalid : s.resultValid = decide (s.st = .final ∧ s.ecode = .none) :=
    Bool.eq_iff_iff.2 (by rw [State.resultValid_iff, decide_eq_true_iff])
  refine ⟨?cmdReady, ?status, ?ecode, ?err, hvalid, ?result⟩
  case cmdReady => exact Bool.eq_iff_iff.2 (by rw [decide_eq_true_iff]; exact s.cmdReady_iff)
  case status => cases hs : s.st <;> simp [State.outputs, Status.code, hs]
  case ecode => cases he : s.ecode <;> simp [State.outputs, ECode.code, he]
  case err => simp [State.outputs, State.err, bne, beq_eq_decide]
  case result =>
    simp only [State.outputs, State.result, hvalid, decide_eq_true_iff, crcFinalXor, Config.xorOut]

/-- Settles O37: `crc` reaches the port `result` alone, which reads as zero while it is not valid. -/
theorem accumulatorIsHidden : Obligations.AccumulatorIsHidden := by
  intro s c h
  have hresult : ({ s with crc := c } : State).result = s.result := by
    rw [State.result_of_not_valid h, State.result_of_not_valid (s := { s with crc := c }) h]
  rw [State.outputs, hresult]
  rfl

/-- Settles O38. -/
theorem resetMeetsInvariants : Obligations.ResetMeetsInvariants := State.Inv.of_reset_elements rfl

end Sys2Proof.Proofs
end

section
/-! SUPPORT. The bytes of the message a state stands in (20_memory.md R58 d) and the accumulator as their
fold, along every run; the statement on valid results. -/

namespace Sys2Proof.Machine

/-! ## The datapath and the settled state -/

/-- A fold may be taken in two parts. -/
theorem crcFold_append (c : Word) (bs bs' : List Byte) :
    crcFold c (bs ++ bs') = crcFold (crcFold c bs) bs' := by
  induction bs generalizing c with
  | nil => rfl
  | cons b bs ih => exact ih (crcUpd c b)

/-- An engine step applies one of the steps the settled state counts in already. -/
theorem settled_engineStep {s : State} (hn : s.cnt ≠ 0) : s.engineStep.settled = s.settled := by
  have hval : s.cnt.val = (cntDown s.cnt).val + 1 := by
    rw [cntDown_val]
    exact (Nat.succ_pred_eq_of_ne_zero (Fin.val_ne_zero_iff.2 hn)).symm
  simp only [State.settled, State.engineStep_crc, State.engineStep_cnt, State.engineStep_st,
    State.engineStep_ecode, hval, crcSteps_succ]

/-- A row of the table that records no fault leaves the fold of the bytes of the message: INIT starts the
fold, UPDATE extends it, FINALIZE keeps it. -/
theorem cmdLevel_crc_eq_fold {v : CmdState} {bs : List Byte} (i : Instr)
    (hlive : (cmdLevel i v).ecode = .none) (he : v.ecode = .none)
    (hcrc : v.crc = crcFold Config.initVal bs) :
    (cmdLevel i v).crc = crcFold Config.initVal (bytesAfter bs i) := by
  obtain ⟨c, st, e⟩ := v
  subst he hcrc
  cases i with
  | init => rfl
  | update b =>
    cases st with
    | final => simp [cmdLevel] at hlive
    | fresh | accum => exact (crcFold_append _ bs [b]).symm
  | finalize =>
    cases st with
    | final => simp [cmdLevel] at hlive
    | fresh | accum => rfl
  | reserved d => simp [cmdLevel] at hlive

/-! ## The bytes of the message, edge by edge -/

/-- The bytes of the message after one edge. -/
def bytesAfterEdge (bs : List Byte) (s : State) (i : Inputs) : List Byte :=
  match (s.drive i).arm with
  | .reset => []
  | .engine => bs
  | .idle => bs
  | .transfer w => bytesAfter bs (decode w)

@[simp] theorem messageBytes_nil (bs : List Byte) (s : State) : messageBytes bs s [] = bs := rfl

theorem messageBytes_cons (bs : List Byte) (s : State) (i : Inputs) (is : List Inputs) :
    messageBytes bs s (i :: is) = messageBytes (bytesAfterEdge bs s i) (nextState s i) is := by
  cases h : (s.drive i).arm <;> simp [messageBytes, bytesAfterEdge, step_drive, h]

/-! ## The accumulator is the fold of the message -/

/-- While no fault is recorded the accumulator, its engine steps counted in, is the fold of these bytes. A
frozen block stands at the fold of any bytes: only a reset, which starts a new message, ends its fault. -/
def State.AtFold (s : State) (bs : List Byte) : Prop :=
  s.ecode = .none → s.settled.crc = crcFold Config.initVal bs

namespace State.AtFold

variable {s : State} {bs : List Byte}

/-- The state after a reset stands at the fold of no bytes. -/
theorem applyReset (s : State) : s.applyReset.AtFold [] := fun _ => rfl

theorem engineStep (h : s.AtFold bs) (hn : s.cnt ≠ 0) : s.engineStep.AtFold bs := fun he => by
  rw [settled_engineStep hn]
  exact h he

/-- A transferred command leads to the fold of the bytes after it: its row of the table while no fault is
recorded, nothing to show afterwards. -/
theorem execState (h : s.AtFold bs) (hn : s.cnt = 0) (i : Instr) :
    (execState i s).AtFold (bytesAfter bs i) := by
  by_cases he : s.ecode = .none
  · rw [execState_of_live i he]
    intro hlive
    have hrow : (execWrites s i).settled = cmdLevel i s.settled := settled_execWrites i hn he
    have hlive' : (cmdLevel i s.settled).ecode = .none := hrow ▸ hlive
    rw [hrow]
    exact cmdLevel_crc_eq_fold i hlive' he (h he)
  · rw [execState_of_faulted i he]
    exact fun he' => absurd he' he

/-- Every edge leads to the fold of the bytes after it. -/
theorem nextState (h : s.AtFold bs) (i : Inputs) : (nextState s i).AtFold (bytesAfterEdge bs s i) := by
  have h' : ({ s with edge := s.edge + 1 } : State).AtFold bs := h
  unfold Machine.nextState bytesAfterEdge
  cases harm : (s.drive i).arm with
  | reset => exact applyReset _
  | engine =>
    obtain ⟨-, hn⟩ := (State.arm_eq_engine _).1 harm
    exact h'.engineStep hn
  | idle => exact h'
  | transfer w =>
    obtain ⟨-, hn, -, -⟩ := (State.arm_eq_transfer _ w).1 harm
    exact h'.execState hn (decode w)

/-- Every run leads to the fold of the bytes of the message its last state stands in. -/
theorem runState (h : s.AtFold bs) (is : List Inputs) : (runState s is).AtFold (messageBytes bs s is) := by
  induction is generalizing s bs with
  | nil => exact h
  | cons i is ih =>
    rw [messageBytes_cons]
    exact ih (h.nextState i)

/-- A valid result of a state at the fold of some bytes is their checksum: in FINAL no engine steps are
left (I3), so the accumulator is the fold itself. -/
theorem result_eq (h : s.AtFold bs) (hinv : s.Inv) (hvalid : s.resultValid = true) :
    s.result = computeCrc32 bs := by
  obtain ⟨hfinal, he⟩ := s.resultValid_iff.1 hvalid
  have hcrc : s.crc = crcFold Config.initVal bs := by
    simpa only [settled_of_idle (hinv.final_idle hfinal)] using h he
  rw [State.result, if_pos hvalid, hcrc, computeCrc32]

end State.AtFold

end Sys2Proof.Machine

namespace Sys2Proof.Proofs

open Sys2Proof Sys2Proof.Machine

/-- Settles O44: every edge keeps the accumulator at the fold of the message's bytes and keeps the
invariants, and a valid result is the complement of that fold. -/
theorem validResultIsChecksumOfAcceptedBytes : Obligations.ValidResultIsChecksumOfAcceptedBytes := by
  intro s t is bs hinv hfold hrun hvalid
  obtain rfl : runState s is = t := by
    simpa only [runInputs_eq, Host.Outcome.next.injEq] using hrun
  have hat : s.AtFold bs := hfold
  exact (hat.runState is).result_eq (hinv.runState is) hvalid

end Sys2Proof.Proofs
end

section
/-! SUPPORT. A command word as its opcode and data fields, decoding by the opcode, and the statements on
the encoding (30_encoding.md R71 to R74). -/

namespace Sys2Proof

/-! ## The two fields of a word -/

@[simp] theorem opField_append (op : BitVec 2) (d : Byte) : opField (op ++ d) = op :=
  BitVec.extractLsb'_append_eq_left

@[simp] theorem dataField_append (op : BitVec 2) (d : Byte) : dataField (op ++ d) = d :=
  BitVec.extractLsb'_append_eq_right

/-- A word is its opcode field and then its data field (R71). -/
theorem opField_append_dataField (w : Command) : opField w ++ dataField w = w := by
  have h := BitVec.extractLsb'_append_extractLsb'_eq_extractLsb' (x := w) (start₂ := 8) (start₁ := 0)
    (len₁ := 8) (len₂ := 2) rfl
  exact h.trans BitVec.extractLsb'_eq_self

/-- The four rows of the opcode map (R73). -/
theorem opcode_cases (op : BitVec 2) : op = 0b00 ∨ op = 0b01 ∨ op = 0b10 ∨ op = 0b11 := by
  revert op; decide

/-! ## Decoding, encoding and the canonical words, row by row -/

theorem decode_of_init {w : Command} (h : opField w = 0b00) : decode w = .init := by
  simp [decode, h]

theorem decode_of_update {w : Command} (h : opField w = 0b01) : decode w = .update (dataField w) := by
  simp [decode, h]

theorem decode_of_finalize {w : Command} (h : opField w = 0b10) : decode w = .finalize := by
  simp [decode, h]

theorem decode_of_reserved {w : Command} (h : opField w = 0b11) : decode w = .reserved (dataField w) := by
  simp [decode, h]

/-- The decoder gives back every instruction, with its operand. -/
@[simp] theorem decode_encode (i : Instr) : decode (encode i) = i := by
  cases i with
  | init => rfl
  | update b =>
    exact (decode_of_update (opField_append 0b01 b)).trans (congrArg Instr.update (dataField_append 0b01 b))
  | finalize => rfl
  | reserved d =>
    exact (decode_of_reserved (opField_append 0b11 d)).trans (congrArg Instr.reserved (dataField_append 0b11 d))

/-- A word without data is its opcode field and zeros. -/
theorem append_zero_eq_iff (w : Command) : opField w ++ 0#8 = w ↔ dataField w = 0 := by
  have h := BitVec.append_right_inj (opField w) (t₁ := 0#8) (t₂ := dataField w)
  rw [opField_append_dataField] at h
  exact h.trans eq_comm

/-- The canonical words (R74): any data for UPDATE, none for INIT and FINALIZE. -/
theorem canonicalWord_iff (w : Command) :
    canonicalWord w = true ↔
      opField w = 0b01 ∨ ((opField w = 0b00 ∨ opField w = 0b10) ∧ dataField w = 0) := by
  rw [canonicalWord, ← opField, ← dataField]
  obtain h | h | h | h := opcode_cases (opField w) <;> simp [h]

/-- Decode then encode keeps the data field in the rows of UPDATE and of the reserved opcode, and clears it
in the other two. -/
theorem encode_decode_iff (w : Command) :
    encode (decode w) = w ↔ canonicalWord w = true ∨ opField w = 0b11 := by
  have hzero := append_zero_eq_iff w
  have hword := opField_append_dataField w
  rw [canonicalWord_iff]
  obtain h | h | h | h := opcode_cases (opField w)
  · rw [h] at hzero ⊢
    rw [decode_of_init h]
    simpa [encode] using hzero
  · rw [h] at hword ⊢
    rw [decode_of_update h]
    simpa [encode] using hword
  · rw [h] at hzero ⊢
    rw [decode_of_finalize h]
    simpa [encode] using hzero
  · rw [h] at hword ⊢
    rw [decode_of_reserved h]
    simpa [encode] using hword

/-- A word software may send is canonical. -/
theorem canonicalWord_encode {i : Instr} (h : i.wellFormed = true) : canonicalWord (encode i) = true := by
  cases i with
  | init => rfl
  | update b => exact (canonicalWord_iff _).2 (.inl (opField_append 0b01 b))
  | finalize => rfl
  | reserved d => cases h

/-- No two instructions share a word. -/
theorem encode_injective : Function.Injective encode := Function.LeftInverse.injective decode_encode

/-! ## Match and mask (R73) -/

/-- The mask 0x300 keeps the opcode field. -/
theorem mask_opcode (w : Command) : w &&& 0x300 = opField w ++ 0#8 := by
  calc w &&& 0x300
    _ = (opField w ++ dataField w) &&& (3#2 ++ 0#8) := by rw [opField_append_dataField]; rfl
    _ = (opField w &&& 3#2) ++ (dataField w &&& 0#8) := BitVec.and_append
    _ = opField w ++ 0#8 := by
      rw [BitVec.and_zero]
      exact congrArg (· ++ 0#8) (BitVec.and_allOnes)

/-- A word matches a row of the table under the mask 0x300 exactly when it has the row's opcode. -/
theorem mask_eq_iff (w : Command) (op : BitVec 2) : w &&& 0x300 = op ++ 0#8 ↔ opField w = op := by
  rw [mask_opcode]
  exact BitVec.append_left_inj _

theorem encode_update (b : Byte) : encode (.update b) = 0x100 + b.setWidth 10 := by
  rw [BitVec.setWidth_eq_append (by decide : 8 ≤ 10)]
  exact BitVec.append_zero_add_zero_append.symm

end Sys2Proof

namespace Sys2Proof.Proofs

open Sys2Proof Sys2Proof.Machine

/-- Settles O13, from the decoder's and the encoder's rows. -/
theorem decodeAfterEncode : Obligations.DecodeAfterEncode :=
  ⟨decode_encode, encode_decode_iff, fun _ => canonicalWord_encode, fun _ _ h => encode_injective h⟩

/-- Settles O12: under the mask a word matches the row of its opcode, by which it is decoded. -/
theorem opcodeMap : Obligations.OpcodeMap :=
  ⟨fun w =>
    ⟨fun h => decode_of_init ((mask_eq_iff w 0b00).1 h), fun h => decode_of_update ((mask_eq_iff w 0b01).1 h),
      fun h => decode_of_finalize ((mask_eq_iff w 0b10).1 h),
      fun h => decode_of_reserved ((mask_eq_iff w 0b11).1 h)⟩,
    rfl, rfl, encode_update⟩

end Sys2Proof.Proofs
end

section
/-! SUPPORT. What of an offer an edge can see: the handshake and the data field (30_encoding.md R74 to R76),
and the lines of text the spec's vectors give. -/

namespace Sys2Proof.Machine

theorem nextState_of_transfer {s : State} {i : Inputs} (h : i.rst = false) (hc : s.cnt = 0)
    (hv : i.cmdValid = true) : nextState s i = execState (decode i.cmd) { s with edge := s.edge + 1 } := by
  simp only [nextState, (State.arm_eq_transfer (s.drive i) i.cmd).2 ⟨h, hc, hv, rfl⟩]

/-- At an edge at which no command is transferred, the word on `cmd` is ignored. -/
theorem nextState_congr_of_no_transfer {s : State} {rst valid : Bool} (w w' : Command)
    (h : valid = false ∨ s.cmdReady = false ∨ rst = true) :
    nextState s ⟨rst, valid, w⟩ = nextState s ⟨rst, valid, w'⟩ := by
  obtain hr | ⟨hr, hn⟩ | ⟨hr, hn, hv⟩ | ⟨hr, hn, hv⟩ := edge_cases s ⟨rst, valid, w⟩
  · exact (nextState_of_reset hr).trans (nextState_of_reset (i := ⟨rst, valid, w'⟩) hr).symm
  · exact (nextState_of_engine hr hn).trans (nextState_of_engine (i := ⟨rst, valid, w'⟩) hr hn).symm
  · exact (nextState_of_idle hr hn hv).trans (nextState_of_idle (i := ⟨rst, valid, w'⟩) hr hn hv).symm
  · have hready : s.cmdReady = true := s.cmdReady_iff.2 hn
    obtain hv' | hready' | hr' := h
    · exact absurd (hv.symm.trans hv') (by decide)
    · exact absurd (hready.symm.trans hready') (by decide)
    · exact absurd (hr'.symm.trans hr) (by decide)

/-- At every edge two words of commands with the same effect have the same outcome. -/
theorem nextState_congr_of_exec {w w' : Command}
    (h : ∀ u, execState (decode w) u = execState (decode w') u) (s : State) (rst valid : Bool) :
    nextState s ⟨rst, valid, w⟩ = nextState s ⟨rst, valid, w'⟩ := by
  by_cases hcase : valid = false ∨ s.cmdReady = false ∨ rst = true
  · exact nextState_congr_of_no_transfer w w' hcase
  · simp only [not_or, Bool.not_eq_false, Bool.not_eq_true] at hcase
    obtain ⟨hv, hready, hr⟩ := hcase
    have hn : s.cnt = 0 := s.cmdReady_iff.1 hready
    rw [nextState_of_transfer hr hn hv, nextState_of_transfer hr hn hv]
    exact h _

end Sys2Proof.Machine

namespace Sys2Proof.Proofs

open Sys2Proof Sys2Proof.Machine

/-- Settles O15: the words of each of the three opcodes decode to commands of one effect. -/
theorem dataOfInitAndFinalizeIgnored : Obligations.DataOfInitAndFinalizeIgnored := by
  intro s rst valid d e
  simp only [step_drive, Host.Outcome.next.injEq]
  have hinit (d : Byte) : decode (0b00#2 ++ d) = .init := decode_of_init (opField_append _ _)
  have hfinalize (d : Byte) : decode (0b10#2 ++ d) = .finalize := decode_of_finalize (opField_append _ _)
  have hreserved (d : Byte) : decode (0b11#2 ++ d) = .reserved d := decode_encode (.reserved d)
  refine ⟨?_, ?_, ?_⟩ <;> refine nextState_congr_of_exec (fun u => ?_) s rst valid
  · rw [hinit, hinit]
  · rw [hfinalize, hfinalize]
  · rw [hreserved, hreserved]
    rfl

/-- Settles O16: the choice of arm says when a word is transferred, and the other arms do not read it. -/
theorem handshakeTransfersExactly : Obligations.HandshakeTransfersExactly := by
  refine ⟨?transfer, ?ignored, ?busy, State.cmdReady_iff⟩
  case transfer =>
    intro s i w
    simp only [State.arm_eq_transfer, State.input_drive, State.drive_cnt, s.cmdReady_iff]
    tauto
  case ignored =>
    intro s rst valid w w' h
    rw [step_drive, step_drive, nextState_congr_of_no_transfer w w' h]
  case busy =>
    intro s valid w h
    have hn : s.cnt ≠ 0 := fun hn => absurd ((s.cmdReady_iff.2 hn).symm.trans h) (by decide)
    rw [step_drive, step_drive, nextState_of_engine rfl hn, nextState_of_engine rfl hn]

/-- Settles O55: every line is assembled as it stands. -/
theorem textAssemblesToWords : Obligations.TextAssemblesToWords := by
  unfold Obligations.TextAssemblesToWords
  decide

end Sys2Proof.Proofs
end

section
/-! SUPPORT. A host that carries out a script (30_encoding.md R78 to R80): every line answers a state, its
effect on the settled state is that of its words on the command-level table, and the EXPECT lines of the
outputs see the settled state alone. -/

namespace Sys2Proof.Machine

/-! ## Edges that leave the settled state -/

/-- An engine step, and an edge at which nothing is offered, leave the settled state. -/
theorem settled_nextState_of_no_transfer {s : State} {i : Inputs} (hr : i.rst = false)
    (h : s.cnt ≠ 0 ∨ i.cmdValid = false) : (nextState s i).settled = s.settled := by
  by_cases hn : s.cnt = 0
  · have hv : i.cmdValid = false := h.resolve_left (not_not_intro hn)
    rw [nextState_of_idle hr hn hv]
    rfl
  · rw [nextState_of_engine hr hn]
    exact settled_engineStep (s := { s with edge := s.edge + 1 }) hn

theorem settled_runState_idle (s : State) (n : Nat) :
    (runState s (List.replicate n idleInputs)).settled = s.settled := by
  induction n generalizing s with
  | zero => rfl
  | succ n ih => exact (ih _).trans (settled_nextState_of_no_transfer rfl (.inr rfl))

/-- Edges without reset, no more of them than engine steps are left, count down and leave the settled
state, whatever is offered (70_reset_and_hazards.md R196). -/
theorem runState_countdown {s : State} {is : List Inputs} (hr : noReset is = true)
    (hlen : is.length ≤ s.cnt.val) :
    (runState s is).cnt.val = s.cnt.val - is.length ∧ (runState s is).settled = s.settled := by
  induction is generalizing s with
  | nil => exact ⟨rfl, rfl⟩
  | cons i is ih =>
    simp only [noReset, List.all_cons, Bool.and_eq_true, Bool.not_eq_true'] at hr
    obtain ⟨hi, his⟩ := hr
    rw [List.length_cons] at hlen ⊢
    have hn : s.cnt ≠ 0 := Fin.val_ne_zero_iff.1 (by omega)
    have hcnt : (nextState s i).cnt.val = s.cnt.val - 1 := by
      rw [nextState_of_engine hi hn]
      rfl
    obtain ⟨hval, hsettled⟩ := ih (s := nextState s i) his (by omega)
    exact ⟨by rw [hcnt] at hval; exact hval.trans (by omega),
      hsettled.trans (settled_nextState_of_no_transfer hi (.inl hn))⟩

/-! ## Sending words -/

/-- The state after the host has waited for the engine and its offer has been transferred. -/
def sendWord (s : State) (w : Command) : State := runState s (waitAndOffer s w)

/-- Sending a word waits out the engine steps left, which keeps the settled state, and then transfers it. -/
theorem sendWord_eq (s : State) (w : Command) :
    ∃ m, m.cnt = 0 ∧ m.settled = s.settled ∧ sendWord s w = execState (decode w) m := by
  let waited := runState s (List.replicate s.cnt.val (offer w))
  obtain ⟨hval, hsettled⟩ : waited.cnt.val = s.cnt.val - _ ∧ waited.settled = s.settled :=
    runState_countdown (by simp [noReset]) List.length_replicate.le
  have hn : waited.cnt = 0 := Fin.val_eq_zero_iff.1 (by rw [hval, List.length_replicate, Nat.sub_self])
  refine ⟨{ waited with edge := waited.edge + 1 }, hn, hsettled, ?_⟩
  rw [sendWord, waitAndOffer, List.replicate_succ', runState_append]
  exact nextState_of_transfer (i := offer w) rfl hn rfl

/-- A transferred command is its row of the table on the settled state. -/
theorem settled_execState {s : State} (i : Instr) (hn : s.cnt = 0) :
    (execState i s).settled = cmdLevel i s.settled := by
  by_cases he : s.ecode = .none
  · rw [execState_of_live i he]
    exact settled_execWrites i hn he
  · rw [execState_of_faulted i he]
    exact (cmdLevel_of_faulted i (v := s.settled) he).symm

theorem settled_sendWord (s : State) (w : Command) :
    (sendWord s w).settled = cmdLevel (decode w) s.settled := by
  obtain ⟨m, hn, hsettled, hsend⟩ := sendWord_eq s w
  rw [hsend, settled_execState _ hn, hsettled]

theorem sendWords_eq (s : State) (ws : List Command) : sendWords s ws = .next (ws.foldl sendWord s) := by
  induction ws generalizing s with
  | nil => rfl
  | cons w ws ih => simp only [sendWords, runInputs_eq, List.foldl_cons, ← ih]; rfl

theorem settled_sendWords (s : State) (ws : List Command) :
    (ws.foldl sendWord s).settled = cmdLevelAll s.settled (ws.map decode) := by
  induction ws generalizing s with
  | nil => rfl
  | cons w ws ih =>
    rw [List.foldl_cons, ih, settled_sendWord]
    rfl

theorem State.Inv.sendWords {s : State} (h : s.Inv) (ws : List Command) : (ws.foldl sendWord s).Inv := by
  induction ws generalizing s with
  | nil => exact h
  | cons w ws ih => exact ih (h.runState _)

/-! ## Lines and scripts -/

/-- The state after the last edge of a line. -/
def lineState (s : State) : Line → State
  | .reset => runState s [resetInputs]
  | .idle n => runState s (List.replicate n idleInputs)
  | l => l.words.foldl sendWord s

theorem runLine_eq (s : State) (l : Line) : runLine s l = .next (lineState s l) := by
  cases l with
  | reset => exact runInputs_eq ..
  | idle n => exact runInputs_eq ..
  | expect name v => rfl
  | command _ | word _ | updates _ | crc32 _ => exact sendWords_eq ..

/-- What a line makes of the settled state: a reset, or the fold of its words. -/
def lineLevel (v : CmdState) : Line → CmdState
  | .reset => ⟨Config.initVal, .fresh, .none⟩
  | l => cmdLevelAll v (l.words.map decode)

theorem settled_lineState (s : State) (l : Line) : (lineState s l).settled = lineLevel s.settled l := by
  cases l with
  | reset => rfl
  | idle n => exact settled_runState_idle s n
  | expect name v => rfl
  | command _ | word _ | updates _ | crc32 _ => exact settled_sendWords ..

theorem State.Inv.lineState {s : State} (h : s.Inv) (l : Line) : (lineState s l).Inv := by
  cases l with
  | reset => exact h.runState _
  | idle n => exact h.runState _
  | expect name v => exact h
  | command _ | word _ | updates _ | crc32 _ => exact h.sendWords _

/-- What a line compares with the value it states, seen in the state after it. -/
def Line.sees (t : State) : Line → List (Observed × Nat × Nat)
  | .expect name v => [(name, v, t.observe name)]
  | _ => []

/-- What the EXPECT lines of a script compare, in order. -/
def scriptSees : State → List Line → List (Observed × Nat × Nat)
  | _, [] => []
  | s, l :: ls => l.sees (lineState s l) ++ scriptSees (lineState s l) ls

theorem runScript_eq (s : State) (ls : List Line) :
    runScript s ls = .next (scriptSees s ls, ls.foldl lineState s) := by
  induction ls generalizing s with
  | nil => rfl
  | cons l ls ih => cases l <;> simp [runScript, runLine_eq, ih, scriptSees, Line.sees]

theorem scriptSees_append (s : State) (ls ls' : List Line) :
    scriptSees s (ls ++ ls') = scriptSees s ls ++ scriptSees (ls.foldl lineState s) ls' := by
  induction ls generalizing s with
  | nil => rfl
  | cons l ls ih => simp [scriptSees, ih]

/-! ## What EXPECT lines of the outputs see -/

/-- The output ports of R80: all but `cmd_ready`. -/
def settledPorts : List Observed := [.status, .resultValid, .result, .err, .ecode]

/-- In sound states the result is read off the settled state: when it is valid the status is FINAL, and no
engine steps are left (I3). -/
theorem State.Inv.result_eq_settled {s : State} (h : s.Inv) :
    s.result = if s.resultValid then crcFinalXor s.settled.crc else 0 := by
  by_cases hvalid : s.resultValid = true
  · obtain ⟨hst, -⟩ := s.resultValid_iff.1 hvalid
    rw [State.result, settled_of_idle (h.final_idle hst)]
  · rw [State.result, if_neg hvalid, if_neg hvalid]

/-- In sound states these ports show the settled state alone. -/
theorem observe_congr {s s' : State} (h : s.Inv) (h' : s'.Inv) (heq : s.settled = s'.settled)
    {name : Observed} (hname : name ∈ settledPorts) : s.observe name = s'.observe name := by
  have hst : s.st = s'.st := congrArg CmdState.st heq
  have hecode : s.ecode = s'.ecode := congrArg CmdState.ecode heq
  have hvalid : s.resultValid = s'.resultValid := by rw [State.resultValid, State.resultValid, hst, hecode]
  cases name with
  | status => exact congrArg (·.code.toNat) hst
  | resultValid => exact congrArg Bool.toNat hvalid
  | result =>
    have hresult : s.result = s'.result := by
      rw [h.result_eq_settled, h'.result_eq_settled, hvalid, heq]
    exact congrArg BitVec.toNat hresult
  | err => exact congrArg (fun e : ECode => (e != .none).toNat) hecode
  | ecode => exact congrArg (·.code.toNat) hecode
  | cmdReady | crc | cnt | st => exact absurd hname (by decide)

/-- What the EXPECT lines of the settled ports see, out of all that EXPECT lines see. -/
def ofSettledPorts (seen : List (Observed × Nat × Nat)) : List (Observed × Nat × Nat) :=
  seen.filter fun e => e.1 ∈ settledPorts

@[simp] theorem ofSettledPorts_append (x y : List (Observed × Nat × Nat)) :
    ofSettledPorts (x ++ y) = ofSettledPorts x ++ ofSettledPorts y :=
  List.filter_append ..

theorem ofSettledPorts_sees_congr {t t' : State} (h : t.Inv) (h' : t'.Inv) (heq : t.settled = t'.settled)
    (l : Line) : ofSettledPorts (l.sees t) = ofSettledPorts (l.sees t') := by
  cases l with
  | expect name v =>
    by_cases hname : name ∈ settledPorts
    · rw [Line.sees, Line.sees, observe_congr h h' heq hname]
    · simp [Line.sees, ofSettledPorts, hname]
  | _ => rfl

/-- From sound states that settle alike, a script's EXPECT lines of the settled ports see the same. -/
theorem ofSettledPorts_scriptSees_congr {s s' : State} (h : s.Inv) (h' : s'.Inv)
    (heq : s.settled = s'.settled) (ls : List Line) :
    ofSettledPorts (scriptSees s ls) = ofSettledPorts (scriptSees s' ls) := by
  induction ls generalizing s s' with
  | nil => rfl
  | cons l ls ih =>
    have hline : (lineState s l).settled = (lineState s' l).settled := by
      rw [settled_lineState, settled_lineState, heq]
    rw [scriptSees, scriptSees, ofSettledPorts_append, ofSettledPorts_append,
      ofSettledPorts_sees_congr (h.lineState l) (h'.lineState l) hline,
      ih (h.lineState l) (h'.lineState l) hline]

theorem State.Inv.scriptState {s : State} (h : s.Inv) (ls : List Line) : (ls.foldl Machine.lineState s).Inv := by
  induction ls generalizing s with
  | nil => exact h
  | cons l ls ih => exact ih (h.lineState l)

/-! ## The message of one CRC32 line -/

/-- UPDATEs and a FINALIZE, begun outside FINAL with no fault recorded, fold the bytes (R151). -/
theorem cmdLevelAll_updates_finalize (c : Word) {st : Status} (hst : st ≠ .final) (bs : List Byte) :
    cmdLevelAll ⟨c, st, .none⟩ (bs.map .update ++ [.finalize]) = ⟨crcFold c bs, .final, .none⟩ := by
  induction bs generalizing c st with
  | nil =>
    cases st with
    | final => contradiction
    | fresh | accum => rfl
  | cons b bs ih =>
    have hrow : cmdLevel (.update b) ⟨c, st, .none⟩ = ⟨crcUpd c b, .accum, .none⟩ := by
      cases st with
      | final => contradiction
      | fresh | accum => rfl
    calc cmdLevelAll ⟨c, st, .none⟩ ((b :: bs).map .update ++ [.finalize])
      _ = cmdLevelAll (cmdLevel (.update b) ⟨c, st, .none⟩) (bs.map .update ++ [.finalize]) := rfl
      _ = ⟨crcFold c (b :: bs), .final, .none⟩ := by rw [hrow, ih _ (by decide), crcFold_cons]

/-- An INIT sent while no fault is recorded leads to the elements of the reset state. -/
theorem inv_sendWord_init {s : State} (he : s.ecode = .none) : (sendWord s (encode .init)).Inv := by
  obtain ⟨m, hn, hsettled, hsend⟩ := sendWord_eq s (encode .init)
  have hm : m.ecode = .none := (congrArg CmdState.ecode hsettled).trans he
  rw [hsend, decode_encode, execState_of_live _ hm]
  exact State.Inv.startTransaction hn hm

theorem words_crc32 (bs : List Byte) : (Line.crc32 bs).words.map decode = messageCommands bs := by
  simp [Line.words, messageCommands, Function.comp_def]

end Sys2Proof.Machine

namespace Sys2Proof.Proofs

open Sys2Proof Sys2Proof.Machine

/-- Settles O54: an IDLE line leaves the settled state, which is all that the named ports show. -/
theorem idleLinesDoNotShow : Obligations.IdleLinesDoNotShow := by
  intro s before after n h
  refine ⟨_, _, _, _, runScript_eq s _, runScript_eq s _, ?_⟩
  have hinv : (before.foldl lineState s).Inv := h.scriptState before
  have hidle := settled_runState_idle (before.foldl lineState s) n
  have hafter := ofSettledPorts_scriptSees_congr (hinv.lineState (.idle n)) hinv hidle after
  calc ofSettledPorts (scriptSees s (before ++ .idle n :: after))
    _ = ofSettledPorts (scriptSees s before) ++
        ofSettledPorts (scriptSees (lineState (before.foldl lineState s) (.idle n)) after) := by
      rw [scriptSees_append, ofSettledPorts_append]
      rfl
    _ = ofSettledPorts (scriptSees s before) ++
        ofSettledPorts (scriptSees (before.foldl lineState s) after) := by rw [hafter]
    _ = ofSettledPorts (scriptSees s (before ++ after)) := by
      rw [scriptSees_append, ofSettledPorts_append]

/-- Settles O53: the INIT leads to a sound state, and the words of the message fold its bytes on the
settled state, which in FINAL is the state itself. -/
theorem pseudoCommandGivesChecksum : Obligations.PseudoCommandGivesChecksum := by
  intro s bs he
  refine ⟨_, runLine_eq s (.crc32 bs), ?_⟩
  generalize ht : lineState s (.crc32 bs) = t
  have hinv : t.Inv := ht ▸ (inv_sendWord_init he).sendWords _
  have hsettled : t.settled = ⟨crcFold Config.initVal bs, .final, .none⟩ := by
    calc t.settled
      _ = cmdLevelAll s.settled ((Line.crc32 bs).words.map decode) := ht ▸ settled_lineState s (.crc32 bs)
      _ = cmdLevelAll (cmdLevel .init s.settled) (bs.map .update ++ [.finalize]) := by
        rw [words_crc32]; rfl
      _ = ⟨crcFold Config.initVal bs, .final, .none⟩ := by
        have hinit : cmdLevel .init s.settled = ⟨Config.initVal, .fresh, .none⟩ := by
          simp [cmdLevel, State.settled, he]
        rw [hinit, cmdLevelAll_updates_finalize _ (by decide)]
  have hst : t.st = .final := congrArg CmdState.st hsettled
  have hvalid : t.resultValid = true := t.resultValid_iff.2 ⟨hst, congrArg CmdState.ecode hsettled⟩
  refine ⟨hinv.final_idle hst, hvalid, ?_⟩
  rw [hinv.result_eq_settled, if_pos hvalid, hsettled]
  rfl

end Sys2Proof.Proofs
end

section
/-! SUPPORT. The algebra of the datapath (40_datapath_primitives.md): a step as a shift and the constant
POLY behind one bit, its bits, its linearity, its inverse, and the equal forms by serial input and by
table; the statements of that chapter. -/

namespace Sys2Proof.Machine

/-! ## The step as a shift and a gated constant -/

/-- POLY behind one bit: what a step XORs into the shifted accumulator. -/
def gatedPoly (t : Bool) : Word := if t then Config.poly else 0

theorem gatedPoly_xor (t u : Bool) : gatedPoly (t ^^ u) = gatedPoly t ^^^ gatedPoly u := by
  cases t <;> cases u <;> rfl

theorem getLsbD_gatedPoly (t : Bool) (i : Nat) :
    (gatedPoly t).getLsbD i = (t && Config.poly.getLsbD i) := by
  cases t <;> simp [gatedPoly]

/-- Bit 31 of POLY is set. -/
theorem getLsbD_gatedPoly_top (t : Bool) : (gatedPoly t).getLsbD 31 = t := by
  cases t <;> rfl

theorem xor_gatedPoly (v : Word) (t : Bool) :
    v ^^^ gatedPoly t = if t then v ^^^ Config.poly else v := by
  cases t
  · exact BitVec.xor_zero
  · rfl

theorem crcStep_eq (c : Word) : crcStep c = shr1 c ^^^ gatedPoly (c.getLsbD 0) :=
  (xor_gatedPoly _ _).symm

theorem crcSerIn_eq (c : Word) (t : Bool) : crcSerIn c t = shr1 c ^^^ gatedPoly (c.getLsbD 0 ^^ t) :=
  (xor_gatedPoly _ _).symm

theorem crcStep_of_even {c : Word} (h : c.getLsbD 0 = false) : crcStep c = shr1 c := by
  rw [crcStep_eq, xor_gatedPoly, h]
  rfl

theorem shr1_xor (a b : Word) : shr1 (a ^^^ b) = shr1 a ^^^ shr1 b := BitVec.ushiftRight_xor_distrib a b 1

theorem getLsbD_shr1 (c : Word) (i : Nat) : (shr1 c).getLsbD i = c.getLsbD (i + 1) := by
  rw [shr1, BitVec.getLsbD_ushiftRight, Nat.add_comm]

/-- A logical shift by one puts a zero before bits 31 to 1 (00_scope.md R9). -/
theorem shr1_eq_append (c : Word) : shr1 c = 0#1 ++ c.extractLsb' 1 31 :=
  BitVec.ushiftRight_eq_extractLsb'_of_lt (by decide)

/-! ## The bits of a step and of an absorb -/

theorem getLsbD_crcStep (c : Word) (i : Nat) :
    (crcStep c).getLsbD i = (c.getLsbD (i + 1) ^^ (c.getLsbD 0 && Config.poly.getLsbD i)) := by
  rw [crcStep_eq, BitVec.getLsbD_xor, getLsbD_shr1, getLsbD_gatedPoly]

/-- No bit is above 31 to be shifted in: the bit tested enters at the top. -/
theorem getLsbD_crcStep_top (c : Word) : (crcStep c).getLsbD 31 = c.getLsbD 0 := by
  rw [crcStep_eq, BitVec.getLsbD_xor, getLsbD_shr1, getLsbD_gatedPoly_top,
    BitVec.getLsbD_of_ge c _ (by decide), Bool.false_xor]

/-- The set bits of POLY below bit 31 (R101). -/
theorem getLsbD_poly (i : Nat) (h : i < 31) :
    Config.poly.getLsbD i = decide (i ∈ [30, 29, 27, 26, 24, 23, 21, 20, 19, 15, 9, 8, 5]) := by
  revert i
  decide

theorem getLsbD_zext32 (b : Byte) (i : Nat) : (zext32 b).getLsbD i = b.getLsbD i := by
  rw [zext32, BitVec.getLsbD_setWidth]
  obtain h | h : i < 32 ∨ 32 ≤ i := by omega
  · simp [h]
  · simp [BitVec.getLsbD_of_ge b i (by omega)]

@[simp] theorem getElem_zext32 (b : Byte) {i : Nat} (h : i < 32) : (zext32 b)[i] = b.getLsbD i :=
  (BitVec.getLsbD_eq_getElem h).symm.trans (getLsbD_zext32 b i)

theorem getLsbD_crcAbsorb (c : Word) (b : Byte) (i : Nat) :
    (crcAbsorb c b).getLsbD i = if i < 8 then (c.getLsbD i ^^ b.getLsbD i) else c.getLsbD i := by
  rw [crcAbsorb, BitVec.getLsbD_xor, getLsbD_zext32]
  split_ifs with h
  · rfl
  · rw [BitVec.getLsbD_of_ge b i (Nat.le_of_not_lt h), Bool.xor_false]

theorem crcAbsorb_crcAbsorb (c : Word) (b : Byte) : crcAbsorb (crcAbsorb c b) b = c := by
  simp [crcAbsorb]

/-! ## Linearity (R102) -/

theorem crcStep_xor (a b : Word) : crcStep (a ^^^ b) = crcStep a ^^^ crcStep b := by
  simp only [crcStep_eq, shr1_xor, BitVec.getLsbD_xor, gatedPoly_xor]
  ac_rfl

theorem crcSteps_xor (n : Nat) (a b : Word) : crcSteps n (a ^^^ b) = crcSteps n a ^^^ crcSteps n b := by
  induction n generalizing a b with
  | zero => rfl
  | succ n ih => rw [crcSteps_succ, crcStep_xor, ih]; rfl

theorem crcUpd_eq_xor (c : Word) (b : Byte) : crcUpd c b = crcStep8 c ^^^ crcStep8 (zext32 b) :=
  crcSteps_xor 8 c (zext32 b)

/-! ## The compositions (R103) -/

theorem crcSteps_eq_iterate (n : Nat) (c : Word) : crcSteps n c = crcStep^[n] c := by
  induction n generalizing c with
  | zero => rfl
  | succ n ih => rw [crcSteps_succ, ih, Function.iterate_succ_apply]

/-! ## The inverse (R105) -/

theorem shiftConcat_eq (v : Word) (t : Bool) :
    v.shiftConcat t = if t then v <<< 1 ||| 1 else v <<< 1 := by
  refine BitVec.eq_of_getLsbD_eq fun i hi => ?_
  cases t <;> cases i <;> simp [hi]

/-- The inverse takes off POLY where bit 31 says it was XORed in, and shifts that bit back in at the
bottom. -/
theorem crcStepInv_eq (n : Word) :
    crcStepInv n = (n ^^^ gatedPoly (n.getLsbD 31)).shiftConcat (n.getLsbD 31) := by
  rw [crcStepInv, shiftConcat_eq, xor_gatedPoly]
  split_ifs <;> rfl

theorem shiftConcat_shr1 (c : Word) : (shr1 c).shiftConcat (c.getLsbD 0) = c :=
  (BitVec.shiftRight_sub_one_eq_shiftConcat c (wn := 1) (by decide)).symm.trans (BitVec.ushiftRight_zero c)

/-- A shift to the left loses nothing when bit 31 is clear. -/
theorem shr1_shiftConcat {v : Word} (t : Bool) (h : v.getLsbD 31 = false) : shr1 (v.shiftConcat t) = v := by
  refine BitVec.eq_of_getLsbD_eq fun i hi => ?_
  rw [getLsbD_shr1, BitVec.getLsbD_shiftConcat]
  obtain hlow | rfl : i + 1 < 32 ∨ i = 31 := by omega
  · simp [hlow]
  · exact h.symm

theorem crcStepInv_crcStep : Function.LeftInverse crcStepInv crcStep := by
  intro c
  have hshift : crcStep c ^^^ gatedPoly (c.getLsbD 0) = shr1 c := by
    rw [crcStep_eq, BitVec.xor_assoc, BitVec.xor_self, BitVec.xor_zero]
  rw [crcStepInv_eq, getLsbD_crcStep_top, hshift, shiftConcat_shr1]

theorem crcStep_crcStepInv : Function.RightInverse crcStepInv crcStep := by
  intro n
  have htop : (n ^^^ gatedPoly (n.getLsbD 31)).getLsbD 31 = false := by
    rw [BitVec.getLsbD_xor, getLsbD_gatedPoly_top, Bool.xor_self]
  have hlow : (crcStepInv n).getLsbD 0 = n.getLsbD 31 := by
    simp [crcStepInv_eq]
  rw [crcStep_eq, hlow, crcStepInv_eq, shr1_shiftConcat _ htop, BitVec.xor_assoc, BitVec.xor_self,
    BitVec.xor_zero]

theorem crcStep_bijective : Function.Bijective crcStep :=
  Function.bijective_iff_has_inverse.2 ⟨crcStepInv, crcStepInv_crcStep, crcStep_crcStepInv⟩

theorem crcStep8_bijective : Function.Bijective crcStep8 := by
  have h : crcStep8 = crcStep^[8] := funext (crcSteps_eq_iterate 8)
  exact h ▸ crcStep_bijective.iterate 8

theorem crcUpd_bijective (b : Byte) : Function.Bijective fun c => crcUpd c b :=
  have habsorb : Function.Involutive fun c => crcAbsorb c b := fun c => crcAbsorb_crcAbsorb c b
  crcStep8_bijective.comp habsorb.bijective

theorem crcFold_bijective (bs : List Byte) : Function.Bijective fun c => crcFold c bs := by
  induction bs with
  | nil => exact Function.bijective_id
  | cons b bs ih => exact ih.comp (crcUpd_bijective b)

/-! ## The serial-input form (R106) -/

/-- A step on the serial form's accumulator with the rest of the byte XORed in is a serial step fed the
next bit, with that bit gone from the rest. -/
theorem crcStep_xor_eq_serIn (c r : Word) : crcStep (c ^^^ r) = crcSerIn c (r.getLsbD 0) ^^^ shr1 r := by
  rw [crcStep_eq, crcSerIn_eq, shr1_xor, BitVec.getLsbD_xor]
  ac_rfl

theorem crcSerial_concat (b : Byte) (c : Word) (ks : List Nat) (k : Nat) :
    crcSerial b c (ks ++ [k]) = crcSerIn (crcSerial b c ks) (b.getLsbD k) := by
  induction ks generalizing c with
  | nil => rfl
  | cons j ks ih => exact ih (crcSerIn c (b.getLsbD j))

/-- The claim of R106's proof: the forms differ by the bits of the byte not yet consumed. -/
theorem crcSteps_crcAbsorb (c : Word) (b : Byte) (k : Nat) :
    crcSteps k (crcAbsorb c b) = crcSerial b c (List.range k) ^^^ (zext32 b >>> k) := by
  induction k with
  | zero => rw [BitVec.ushiftRight_zero]; rfl
  | succ k ih =>
    have hbit : (zext32 b >>> k).getLsbD 0 = b.getLsbD k := by
      rw [BitVec.getLsbD_ushiftRight, getLsbD_zext32, Nat.add_zero]
    calc crcSteps (k + 1) (crcAbsorb c b)
      _ = crcStep (crcSteps k (crcAbsorb c b)) := by rw [crcSteps_succ, crcSteps_step]
      _ = crcSerIn (crcSerial b c (List.range k)) (b.getLsbD k) ^^^ shr1 (zext32 b >>> k) := by
        rw [ih, crcStep_xor_eq_serIn, hbit]
      _ = crcSerial b c (List.range (k + 1)) ^^^ (zext32 b >>> (k + 1)) := by
        rw [List.range_succ, crcSerial_concat, BitVec.shiftRight_add, shr1]

theorem crcSerial_eq_crcUpd (c : Word) (b : Byte) : crcSerial b c (List.range 8) = crcUpd c b := by
  have hconsumed : zext32 b >>> 8 = 0 := by
    refine BitVec.eq_of_getLsbD_eq fun i _ => ?_
    rw [BitVec.getLsbD_ushiftRight, getLsbD_zext32, BitVec.getLsbD_of_ge b _ (by omega)]
    simp
  rw [crcUpd_eq_steps, crcSteps_crcAbsorb, hconsumed]
  exact (BitVec.xor_zero).symm

/-! ## The table form (R107) -/

/-- While the bits tested are 0, the steps only shift. -/
theorem crcSteps_of_low_zeros {n : Nat} {c : Word} (h : ∀ i < n, c.getLsbD i = false) :
    crcSteps n c = c >>> n := by
  induction n generalizing c with
  | zero => exact (BitVec.ushiftRight_zero c).symm
  | succ n ih =>
    have hrest : ∀ i < n, (shr1 c).getLsbD i = false := fun i hi => by
      rw [getLsbD_shr1]
      exact h (i + 1) (by omega)
    rw [crcSteps_succ, crcStep_of_even (h 0 (by omega)), ih hrest, shr1, ← BitVec.shiftRight_add,
      Nat.add_comm]

/-- The absorb splits into its high 24 bits, the accumulator's own, and its low byte. -/
theorem crcAbsorb_eq_high_xor_low (c : Word) (b : Byte) :
    crcAbsorb c b = ((c >>> 8) <<< 8) ^^^ zext32 ((c ^^^ zext32 b).extractLsb' 0 8) := by
  refine BitVec.eq_of_getLsbD_eq fun i hi => ?_
  rw [getLsbD_crcAbsorb]
  split_ifs with h
  · simp [h, hi]
  · simp [h, hi, show 8 + (i - 8) = i by omega]

theorem crcStep8_high (c : Word) : crcStep8 ((c >>> 8) <<< 8) = c >>> 8 := by
  have hlow : ∀ i < 8, ((c >>> 8) <<< 8).getLsbD i = false := fun i hi => by simp [hi]
  refine (crcSteps_of_low_zeros hlow).trans (BitVec.eq_of_getLsbD_eq fun i _ => ?_)
  obtain h | h : 8 + i < 32 ∨ 32 ≤ 8 + i := by omega
  · simp [h]
  · simp [BitVec.getLsbD_of_ge _ _ h]

theorem crcUpd_eq_byTable (c : Word) (b : Byte) : crcUpd c b = crcUpdByTable c b := by
  calc crcUpd c b
    _ = crcStep8 (((c >>> 8) <<< 8) ^^^ zext32 ((c ^^^ zext32 b).extractLsb' 0 8)) :=
      congrArg crcStep8 (crcAbsorb_eq_high_xor_low c b)
    _ = crcStep8 ((c >>> 8) <<< 8) ^^^ crcTable ((c ^^^ zext32 b).extractLsb' 0 8) := crcSteps_xor 8 _ _
    _ = crcUpdByTable c b := by rw [crcStep8_high]; rfl

/-! ## The final XOR (R104) -/

theorem crcFinalXor_eq_not (c : Word) : crcFinalXor c = ~~~c := BitVec.xor_allOnes

theorem State.result_of_valid {s : State} (h : s.resultValid = true) : s.result = crcFinalXor s.crc :=
  if_pos h

/-- A FINALIZE keeps the accumulator, whether it is executed, faults or is discarded. -/
theorem execState_finalize_crc (s : State) : (execState .finalize s).crc = s.crc := by
  by_cases he : s.ecode = .none
  · by_cases hst : s.st = .final <;> simp [execState_of_live _ he, execWrites, hst]
  · rw [execState_of_faulted _ he]

end Sys2Proof.Machine

namespace Sys2Proof.Proofs

open Sys2Proof Sys2Proof.Machine

/-- Settles O2: each bit of a step is the bit above it, XORed with bit 0 where POLY has a set bit. -/
theorem engineStepBitByBit : Obligations.EngineStepBitByBit := by
  refine ⟨?equation, getLsbD_crcStep_top, ?bits, by decide⟩
  case equation =>
    intro c
    rw [← shr1_eq_append]
    rfl
  case bits =>
    intro c i hi
    rw [getLsbD_crcStep, getLsbD_poly i hi]
    split_ifs with h <;> simp [h]

/-- Settles O3: the shift and the gated constant are linear, and with them every number of steps. -/
theorem engineStepIsLinear : Obligations.EngineStepIsLinear :=
  ⟨crcStep_xor, by decide, crcSteps_xor 8, crcUpd_eq_xor⟩

/-- Settles O6: the inverse of one step gives that of the compositions. -/
theorem engineStepIsBijective : Obligations.EngineStepIsBijective :=
  ⟨crcStepInv_crcStep, crcStep_crcStepInv, fun _ => rfl, crcStep_bijective, crcStep8_bijective,
    crcUpd_bijective, crcFold_bijective⟩

/-- Settles O7, by the difference of the two forms after each bit. -/
theorem serialFormEqualsUpdate : Obligations.SerialFormEqualsUpdate := by
  refine ⟨crcSerial_eq_crcUpd, fun c b k _ => ?_, by decide⟩
  rw [← crcSteps_eq_iterate, crcSteps_crcAbsorb]

/-- Settles O8: by linearity the high 24 bits are shifted alone and the low byte is looked up. -/
theorem tableFormEqualsUpdate : Obligations.TableFormEqualsUpdate := by
  refine ⟨crcUpd_eq_byTable, fun c b => ?_, by decide⟩
  have hshift : c >>> 8 = 0x00#8 ++ c.extractLsb' 8 24 :=
    BitVec.ushiftRight_eq_extractLsb'_of_lt (by decide)
  rw [crcUpd_eq_byTable, crcUpdByTable, hshift]
  rfl

/-- Settles O1, bit by bit: above bit 7 the byte has no bits. -/
theorem absorbTouchesLowByte : Obligations.AbsorbTouchesLowByte := by
  refine ⟨getLsbD_crcAbsorb, fun c b => ?append, fun c => ?zero, crcAbsorb_crcAbsorb, by decide⟩
  case append =>
    have hzext : zext32 b = 0x000000#24 ++ b := BitVec.setWidth_eq_append (by decide)
    rw [crcAbsorb, hzext]
  case zero => exact BitVec.xor_zero

/-- Settles O4: the compositions are steps iterated; the values are evaluated. -/
theorem compositionsOfTheStep : Obligations.CompositionsOfTheStep :=
  ⟨crcSteps_eq_iterate 8, fun c b => crcSteps_eq_iterate 8 (crcAbsorb c b), crcFold_nil, crcFold_cons,
    by decide⟩

/-- Settles O5: XOROUT is all ones, and a FINALIZE writes the status alone. -/
theorem finalXorComplements : Obligations.FinalXorComplements := by
  refine ⟨fun _ => rfl, crcFinalXor_eq_not, fun c => ?involution, by decide, by decide,
    fun _ => State.result_of_valid, fun s => ⟨_, exec_eq .finalize s, execState_finalize_crc s⟩⟩
  case involution => rw [crcFinalXor_eq_not, crcFinalXor_eq_not, BitVec.not_not]

end Sys2Proof.Proofs
end

section
/-! SUPPORT. What a transferred command and an edge can do (41_commands.md R120 to R126), runs of engine
steps and of idle edges; the statements on the edge function and the commands. -/

namespace Sys2Proof.Machine

variable {s : State}

/-! ## The next state of each command -/

theorem execState_init (he : s.ecode = .none) : execState .init s = s.startTransaction :=
  execState_of_live .init he

theorem execState_update (b : Byte) (he : s.ecode = .none) (hs : s.st ≠ .final) :
    execState (.update b) s = s.absorb b := by
  rw [execState_of_live _ he, execWrites, if_neg hs]

theorem execState_update_of_final (b : Byte) (he : s.ecode = .none) (hs : s.st = .final) :
    execState (.update b) s = s.raiseFault .updateAfterFinal := by
  rw [execState_of_live _ he, execWrites, if_pos hs]

theorem execState_finalize (he : s.ecode = .none) (hs : s.st ≠ .final) :
    execState .finalize s = s.finish := by
  rw [execState_of_live _ he, execWrites, if_neg hs]

theorem execState_finalize_of_final (he : s.ecode = .none) (hs : s.st = .final) :
    execState .finalize s = s.raiseFault .finalizeAfterFinal := by
  rw [execState_of_live _ he, execWrites, if_pos hs]

theorem execState_reserved (d : Byte) (he : s.ecode = .none) :
    execState (.reserved d) s = s.raiseFault .reservedOp :=
  execState_of_live (.reserved d) he

/-- The causes of a protocol fault: the status, the command and the code it records (60_exceptions.md
R171). INIT is the cause of none. -/
inductive FaultCause : Status → Instr → ECode → Prop where
  | reserved (st : Status) (d : Byte) : FaultCause st (.reserved d) .reservedOp
  | update (b : Byte) : FaultCause .final (.update b) .updateAfterFinal
  | finalize : FaultCause .final .finalize .finalizeAfterFinal

theorem FaultCause.ne_init {st : Status} {i : Instr} {code : ECode} (h : FaultCause st i code) :
    i ≠ .init := by
  cases h <;> simp

/-- What a transferred command can do to a state: be discarded by a frozen block (R126), carry out its
writes (R122 to R124), or raise a protocol fault. -/
inductive CommandEffect (s : State) : Instr → State → Prop where
  | discarded {i : Instr} (he : s.ecode ≠ .none) : CommandEffect s i s
  | started (he : s.ecode = .none) : CommandEffect s .init s.startTransaction
  | absorbed {b : Byte} (he : s.ecode = .none) (hs : s.st ≠ .final) : CommandEffect s (.update b) (s.absorb b)
  | finished (he : s.ecode = .none) (hs : s.st ≠ .final) : CommandEffect s .finalize s.finish
  | faulted {i : Instr} {code : ECode} (he : s.ecode = .none) (hcause : FaultCause s.st i code) :
      CommandEffect s i (s.raiseFault code)

/-- INVERSION: every transferred command has one of these effects. -/
theorem execState_effect (i : Instr) (s : State) : CommandEffect s i (execState i s) := by
  by_cases he : s.ecode = .none
  · cases i with
    | init => exact execState_init he ▸ .started he
    | update b =>
      by_cases hs : s.st = .final
      · exact execState_update_of_final b he hs ▸ .faulted he (hs ▸ .update b)
      · exact execState_update b he hs ▸ .absorbed he hs
    | finalize =>
      by_cases hs : s.st = .final
      · exact execState_finalize_of_final he hs ▸ .faulted he (hs ▸ .finalize)
      · exact execState_finalize he hs ▸ .finished he hs
    | reserved d => exact execState_reserved d he ▸ .faulted he (.reserved s.st d)
  · exact (execState_of_faulted i he).symm ▸ .discarded he

theorem exec_effect {i : Instr} {t : State} (h : exec i s = .next t) : CommandEffect s i t := by
  rw [exec_eq, Host.Outcome.next.injEq] at h
  exact h ▸ execState_effect i s

namespace CommandEffect

variable {i : Instr} {t : State}

/-- No command reads or writes the model's own fields. -/
theorem inputs_edge (h : CommandEffect s i t) : t.inputs = s.inputs ∧ t.edge = s.edge := by
  cases h <;> exact ⟨rfl, rfl⟩

/-- Only an executed UPDATE writes the count. -/
theorem cnt_eq (h : CommandEffect s i t)
    (hupdate : ¬(s.ecode = .none ∧ s.st ≠ .final ∧ ∃ b, i = .update b)) : t.cnt = s.cnt := by
  cases h with
  | absorbed he hs => exact absurd ⟨he, hs, _, rfl⟩ hupdate
  | discarded _ | started _ | finished _ _ | faulted _ _ => rfl

/-- The only command that leaves FINAL is an executed INIT. -/
theorem init_of_leaves_final (h : CommandEffect s i t) (hs : s.st = .final) (ht : t.st ≠ .final) :
    i = .init ∧ s.ecode = .none := by
  cases h with
  | started he => exact ⟨rfl, he⟩
  | absorbed _ hs' => exact absurd hs hs'
  | finished _ hs' => exact absurd hs hs'
  | discarded _ | faulted _ _ => exact absurd hs ht

/-- A command that changes the fault code records one where there was none, is no INIT, and changes nothing
else (60_exceptions.md R172). -/
theorem of_ecode_ne (h : CommandEffect s i t) (ht : t.ecode ≠ s.ecode) :
    i ≠ .init ∧ s.ecode = .none ∧ t.crc = s.crc ∧ t.cnt = s.cnt ∧ t.st = s.st := by
  cases h with
  | faulted he hcause => exact ⟨hcause.ne_init, he, rfl, rfl, rfl⟩
  | discarded _ | started _ | absorbed _ _ | finished _ _ => exact absurd rfl ht

end CommandEffect

/-- A recorded fault hides the result (R126, R25). -/
theorem State.resultValid_of_faulted (he : s.ecode ≠ .none) : s.resultValid = false := by
  simp [State.resultValid, he]

/-! ## The kinds of edge -/

/-- What an edge can do to a state: arms A, B, C, and D and E together (R120). -/
inductive EdgeEffect (s : State) : State → Prop where
  | reset (hr : s.input.rst = true) : EdgeEffect s s.tick.applyReset
  | engine (hr : s.input.rst = false) (hn : s.cnt ≠ 0) : EdgeEffect s s.tick.engineStep
  | idle (hr : s.input.rst = false) (hn : s.cnt = 0) (hv : s.input.cmdValid = false) : EdgeEffect s s.tick
  | transfer {t : State} (hr : s.input.rst = false) (hn : s.cnt = 0) (hv : s.input.cmdValid = true)
      (ht : CommandEffect s.tick (decode s.input.cmd) t) : EdgeEffect s t

/-- INVERSION: every step is an edge of one of these kinds. -/
theorem step_effect {t : State} (h : step s = .next t) : EdgeEffect s t := by
  cases harm : s.arm with
  | reset =>
    rw [step_of_reset harm, Host.Outcome.next.injEq] at h
    exact h ▸ .reset (s.arm_eq_reset.1 harm)
  | engine =>
    obtain ⟨hr, hn⟩ := s.arm_eq_engine.1 harm
    rw [step_of_engine harm, Host.Outcome.next.injEq] at h
    exact h ▸ .engine hr hn
  | idle =>
    obtain ⟨hr, hn, hv⟩ := s.arm_eq_idle.1 harm
    rw [step_of_idle harm, Host.Outcome.next.injEq] at h
    exact h ▸ .idle hr hn hv
  | transfer w =>
    obtain ⟨hr, hn, hv, rfl⟩ := (s.arm_eq_transfer w).1 harm
    rw [step_of_transfer harm] at h
    exact .transfer hr hn hv (exec_effect h)

/-- An edge uses up its own inputs alone. -/
theorem nextState_inputs (s : State) (i : Inputs) : (nextState s i).inputs = s.inputs := by
  unfold nextState
  cases (s.drive i).arm with
  | reset | engine | idle => rfl
  | transfer w => exact (execState_effect (decode w) { s with edge := s.edge + 1 }).inputs_edge.1

/-! ## Runs of engine steps and of idle edges -/

theorem noReset_cons {i : Inputs} {is : List Inputs} :
    noReset (i :: is) = true ↔ i.rst = false ∧ noReset is = true := by
  simp [noReset]

/-- Edges without reset, no more of them than engine steps are left, are that many engine steps, whatever
is offered (R121). -/
theorem crc_runState_countdown {is : List Inputs} (hr : noReset is = true) (hlen : is.length ≤ s.cnt.val) :
    (runState s is).crc = crcSteps is.length s.crc := by
  induction is generalizing s with
  | nil => rfl
  | cons i is ih =>
    obtain ⟨hi, his⟩ := noReset_cons.1 hr
    rw [List.length_cons] at hlen
    have hn : s.cnt ≠ 0 := Fin.val_ne_zero_iff.1 (by omega)
    have hnext : nextState s i = { s with edge := s.edge + 1 }.engineStep := nextState_of_engine hi hn
    have hleft : is.length ≤ (nextState s i).cnt.val := by
      rw [hnext, State.engineStep_cnt, cntDown_val]
      exact Nat.le_sub_of_add_le hlen
    exact (ih his hleft).trans (congrArg (crcSteps is.length) (by rw [hnext]; rfl))

/-- Idle edges are counted by the model's own field and change nothing else (R127). -/
theorem runState_idle_edges {is : List Inputs} (hn : s.cnt = 0)
    (hidle : ∀ i ∈ is, i.rst = false ∧ i.cmdValid = false) :
    runState s is = { s with edge := s.edge + is.length } := by
  induction is generalizing s with
  | nil => rfl
  | cons i is ih =>
    obtain ⟨⟨hr, hv⟩, his⟩ := List.forall_mem_cons.1 hidle
    calc runState s (i :: is)
      _ = runState { s with edge := s.edge + 1 } is := congrArg (runState · is) (nextState_of_idle hr hn hv)
      _ = { s with edge := s.edge + (is.length + 1) } := by
        rw [ih (s := { s with edge := s.edge + 1 }) hn his, Nat.add_assoc, Nat.add_comm 1]

/-! ## An UPDATE and its engine steps -/

theorem opField_of_decode_update {w : Command} {b : Byte} (h : decode w = .update b) : opField w = 0b01 := by
  obtain hop | hop | hop | hop := opcode_cases (opField w)
  · simp [decode_of_init hop] at h
  · exact hop
  · simp [decode_of_finalize hop] at h
  · simp [decode_of_reserved hop] at h

theorem nextState_offer (hn : s.cnt = 0) (w : Command) :
    nextState s (offer w) = execState (decode w) { s with edge := s.edge + 1 } :=
  nextState_of_transfer (i := offer w) rfl hn rfl

/-- The state after `k` of the eight edges that follow an executed UPDATE, whatever is offered at them
(R131 b). -/
theorem elements_runState_update (b : Byte) {is : List Inputs} (hn : s.cnt = 0) (he : s.ecode = .none)
    (hs : s.st ≠ .final) (hlen : is.length ≤ 8) (hr : noReset is = true) :
    let t := runState s (offer (encode (.update b)) :: is)
    (t.crc, t.cnt.val, t.st, t.ecode) =
      (crcSteps is.length (crcAbsorb s.crc b), 8 - is.length, .accum, .none) := by
  let m : State := { s with edge := s.edge + 1 }.absorb b
  have hm : nextState s (offer (encode (.update b))) = m := by
    rw [nextState_offer hn, decode_encode]
    exact execState_update (s := { s with edge := s.edge + 1 }) b he hs
  have hrun : runState s (offer (encode (.update b)) :: is) = runState m is := congrArg (runState · is) hm
  obtain ⟨hcnt, hsettled⟩ : (runState m is).cnt.val = 8 - is.length ∧ (runState m is).settled = m.settled :=
    runState_countdown hr hlen
  rw [hrun]
  exact four_eq.2 ⟨crc_runState_countdown (s := m) hr hlen, hcnt, congrArg CmdState.st hsettled,
    (congrArg CmdState.ecode hsettled).trans he⟩

/-- Of the eight edges after an UPDATE the block is ready after the last (70_reset_and_hazards.md R200). -/
theorem cmdReady_iff_of_countdown {k : Nat} (hk : k ≤ 8) (hcnt : s.cnt.val = 8 - k) :
    s.cmdReady = true ↔ k = 8 := by
  rw [s.cmdReady_iff, ← Fin.val_eq_zero_iff, hcnt]
  omega

/-- A run that ends with a reset edge ends in the elements of the reset state (R131 c). -/
theorem elements_runState_reset (s : State) (is : List Inputs) {i : Inputs} (hi : i.rst = true) :
    let t := runState s (is ++ [i])
    (t.crc, t.cnt, t.st, t.ecode) = (0xFFFFFFFF, 0, .fresh, .none) := by
  have hlast : runState s (is ++ [i]) = { runState s is with edge := (runState s is).edge + 1 }.applyReset :=
    (runState_append s is [i]).trans (nextState_of_reset hi)
  rw [hlast]
  rfl

end Sys2Proof.Machine

namespace Sys2Proof.Proofs

open Sys2Proof Sys2Proof.Machine

/-- Settles O17, by the four kinds of edge, and at a transfer by the fault code, the opcode and the status. -/
theorem edgeFunction : Obligations.EdgeFunction := by
  intro s i
  refine ⟨nextState s i, step_drive s i, nextState_inputs s i, ?_⟩
  obtain hr | ⟨hr, hn⟩ | ⟨hr, hn, hv⟩ | ⟨hr, hn, hv⟩ := edge_cases s i
  · rw [nextState_of_reset hr, if_pos hr]
    rfl
  · rw [nextState_of_engine hr hn, if_neg (by simp [hr]), if_pos (Fin.val_ne_zero_iff.2 hn)]
    rfl
  · simp [nextState_of_idle hr hn hv, hr, hn, hv]
  · by_cases he : s.ecode = .none
    · have hlive : ({ s with edge := s.edge + 1 } : State).ecode = .none := he
      have hop : i.cmd.extractLsb' 8 2 = opField i.cmd := rfl
      have hnext := nextState_of_transfer hr hn hv
      obtain h | h | h | h := opcode_cases (opField i.cmd)
      · rw [hnext, decode_of_init h, execState_init hlive]
        simp [hr, hn, hv, he, hop, h, Config.initVal]
      · rw [hnext, decode_of_update h]
        by_cases hs : s.st = .final
        · rw [execState_update_of_final _ hlive hs]
          simp [hr, hn, hv, he, hop, h, hs]
        · rw [execState_update _ hlive hs]
          simp [hr, hn, hv, he, hop, h, hs, crcAbsorb, zext32, dataField]
      · rw [hnext, decode_of_finalize h]
        by_cases hs : s.st = .final
        · rw [execState_finalize_of_final hlive hs]
          simp [hr, hn, hv, he, hop, h, hs]
        · rw [execState_finalize hlive hs]
          simp [hr, hn, hv, he, hop, h, hs]
      · rw [hnext, decode_of_reserved h, execState_reserved _ hlive]
        simp [hr, hn, hv, he, hop, h]
    · simp [nextState_of_frozen hr hn hv he, hr, hn, hv, he]

/-- Settles O20: idle edges change the model's own count of edges alone. -/
theorem idleEdgesChangeNothing : Obligations.IdleEdgesChangeNothing := by
  intro s is hn hidle
  refine ⟨_, runInputs_eq s is, ?_⟩
  rw [runState_idle_edges hn hidle]
  exact ⟨rfl, hn, rfl, rfl, rfl, State.outputs_congr rfl⟩

/-- Settles O21, by the effect of INIT with and without a recorded fault. -/
theorem initStartsTransaction : Obligations.InitStartsTransaction := by
  have hfrozen (s : State) (he : s.ecode ≠ .none) : exec .init s = .next s := by
    rw [exec_eq, execState_of_faulted _ he]
  have hlive (s : State) (he : s.ecode = .none) : exec .init s = .next s.startTransaction := by
    rw [exec_eq, execState_init he]
  refine ⟨hlive, hfrozen, ?fresh, ?hidden, ?busy, ?oneEdge, ?leavesFinal⟩
  case fresh =>
    intro s hinv hs
    by_cases he : s.ecode = .none
    · have hsame : s.startTransaction = s :=
        State.eq_of_fields (hinv.fresh_initial hs).1.symm rfl hs.symm rfl rfl rfl
      rw [hlive s he, hsame]
    · exact hfrozen s he
  case hidden =>
    intro s t h
    have hvalid : t.resultValid = false := by
      cases exec_effect h with
      | discarded he => exact State.resultValid_of_faulted he
      | started _ => rfl
      | faulted _ hcause => exact absurd rfl hcause.ne_init
    exact ⟨hvalid, State.result_of_not_valid hvalid⟩
  case busy =>
    intro s w _ hn
    rw [step_drive, nextState_of_engine rfl hn]
    rfl
  case oneEdge =>
    intro s w hw hn he
    rw [step_drive, nextState_offer hn, hw, execState_init (s := { s with edge := s.edge + 1 }) he]
    rfl
  case leavesFinal =>
    intro i s t _ hs h ht
    exact ((exec_effect h).init_of_leaves_final hs ht).1

/-- Settles O22, by the effect of UPDATE and the run of its engine steps. -/
theorem updateAbsorbsAndSteps : Obligations.UpdateAbsorbsAndSteps := by
  have hzero (c : Word) : crcUpd c 0x00 = crcStep8 c := congrArg crcStep8 BitVec.xor_zero
  refine ⟨?absorb, ?inFinal, ?frozen, ?steps, ?reset, ?zero, by decide⟩
  case absorb => exact fun s b he hs => by rw [exec_eq, execState_update b he hs]; rfl
  case inFinal => exact fun s b he hs => by rw [exec_eq, execState_update_of_final b he hs]; rfl
  case frozen => exact fun s b he => by rw [exec_eq, execState_of_faulted _ he]
  case steps =>
    intro s b is hn he hs hlen hr
    obtain ⟨hcrc, hcnt, hst, hecode⟩ := four_eq.1 (elements_runState_update b hn he hs hlen hr)
    refine ⟨_, runInputs_eq .., hcrc.trans (crcSteps_eq_iterate _ _), fun h8 => ?_, hcnt, hst, hecode,
      cmdReady_iff_of_countdown hlen hcnt⟩
    rw [hcrc, h8, crcUpd_eq_steps]
  case reset =>
    exact fun s i _ hi => ⟨_, step_drive s i, elements_runState_reset s [] hi⟩
  case zero =>
    refine fun c => ⟨hzero c, ?_⟩
    rw [hzero]
    exact crcStep8_bijective.injective.eq_iff' (by decide)

/-- Settles O23, by the effect of FINALIZE; the output stage complements the accumulator. -/
theorem finalizeWritesStatusAlone : Obligations.FinalizeWritesStatusAlone := by
  have hvalid (s : State) (he : s.ecode = .none) : s.finish.resultValid = true :=
    s.finish.resultValid_iff.2 ⟨rfl, he⟩
  have hresult (s : State) (he : s.ecode = .none) : s.finish.result = crcFinalXor s.crc :=
    State.result_of_valid (hvalid s he)
  refine ⟨?finish, ?inFinal, ?frozen, ?fresh, ?idle, ?leavesFinal⟩
  case finish =>
    exact fun s he hs => ⟨by rw [exec_eq, execState_finalize he hs]; rfl, hvalid s he, hresult s he⟩
  case inFinal => exact fun s he hs => by rw [exec_eq, execState_finalize_of_final he hs]; rfl
  case frozen =>
    exact fun s he => ⟨by rw [exec_eq, execState_of_faulted _ he], State.resultValid_of_faulted he⟩
  case fresh =>
    intro s hinv he hs
    refine ⟨s.finish, by rw [exec_eq, execState_finalize he (by simp [hs])], hvalid s he, ?_⟩
    rw [hresult s he, (hinv.fresh_initial hs).1]
    decide
  case idle =>
    intro s i w harm _
    obtain ⟨-, hn, -, -⟩ := (State.arm_eq_transfer _ w).1 harm
    exact hn
  case leavesFinal =>
    intro s t hs h ht
    cases step_effect h with
    | reset hr => exact .inl hr
    | engine _ _ => exact absurd hs ht
    | idle _ _ _ => exact absurd hs ht
    | transfer _ _ hv heff =>
      obtain ⟨hinit, he⟩ := heff.init_of_leaves_final hs ht
      exact .inr ⟨hv, hinit, he⟩

/-- Settles O25: a frozen block discards every command, so only reset changes its fault code. -/
theorem frozenDiscardsCommands : Obligations.FrozenDiscardsCommands := by
  refine ⟨?discard, ?transferred, ?onlyReset⟩
  case discard => exact fun i s he => by rw [exec_eq, execState_of_faulted i he]
  case transferred =>
    intro s w hn he
    have hvalid := State.resultValid_of_faulted he
    have harm : (s.drive (offer w)).arm = .transfer w := (State.arm_eq_transfer _ w).2 ⟨rfl, hn, rfl, rfl⟩
    refine ⟨s.cmdReady_iff.2 hn, harm, ?_, hvalid, State.result_of_not_valid hvalid⟩
    rw [step_drive, nextState_of_frozen rfl hn rfl he]
  case onlyReset =>
    intro s t he h ht
    cases step_effect h with
    | reset hr => exact hr
    | engine _ _ => exact absurd rfl ht
    | idle _ _ _ => exact absurd rfl ht
    | transfer _ _ _ heff =>
      obtain ⟨-, hlive, -⟩ := heff.of_ecode_ne ht
      exact absurd hlive he

/-- Settles O26, by the five effects a command can have. -/
theorem instructionFrames : Obligations.InstructionFrames := by
  intro i s t h
  have heff : CommandEffect s i t := exec_effect h
  obtain ⟨hinputs, hedge⟩ := heff.inputs_edge
  refine ⟨hinputs, hedge, ?crc, ?cnt, ?st, fun hne => ?ecode, fun hne => ?fault⟩
  case crc =>
    cases heff with
    | started _ => exact fun _ => .inl rfl
    | absorbed _ _ => exact fun _ => .inr ⟨_, rfl⟩
    | discarded _ | finished _ _ | faulted _ _ => exact absurd rfl
  case cnt =>
    cases heff with
    | absorbed _ _ => exact fun _ => ⟨_, rfl⟩
    | discarded _ | started _ | finished _ _ | faulted _ _ => exact absurd rfl
  case st =>
    cases heff with
    | started _ => exact fun _ => .inl rfl
    | finished _ _ => exact fun _ => .inr (.inl rfl)
    | absorbed _ _ => exact fun _ => .inr (.inr ⟨_, rfl⟩)
    | discarded _ | faulted _ _ => exact absurd rfl
  case ecode =>
    obtain ⟨hi, he, -⟩ := heff.of_ecode_ne hne
    exact ⟨hi, he⟩
  case fault =>
    obtain ⟨-, -, hkept⟩ := heff.of_ecode_ne hne
    exact hkept

/-- Settles O18: the arm of a transfer runs the decoded word, and an offered word is transferred. -/
theorem stepRunsDecodedInstruction : Obligations.StepRunsDecodedInstruction := by
  refine ⟨fun s w => step_of_transfer, fun s nbits w i hi => ?_, fun _ => rfl⟩
  obtain rfl : decode (commandOfTableWord nbits w) = i := Option.some.inj hi
  have harm : (s.withFetchWord nbits w).arm = .transfer (commandOfTableWord nbits w) :=
    (State.arm_eq_transfer _ _).2 ⟨rfl, rfl, rfl, rfl⟩
  rw [step_of_transfer harm]
  rfl

/-- Settles O19: an edge with engine steps left takes one, and the invariants then fix status and code. -/
theorem engineStepEdge : Obligations.EngineStepEdge := by
  refine ⟨fun s i hr hn => ⟨_, step_drive s i, ?step⟩, fun s hinv => hinv.busy,
    fun s i hr hcrc h8 => ⟨_, step_drive s i, ?values⟩⟩
  case step =>
    rw [nextState_of_engine hr hn]
    exact ⟨rfl, rfl, rfl, rfl, rfl⟩
  case values =>
    rw [nextState_of_engine hr (by simp [h8]), State.engineStep_crc, State.engineStep_cnt, hcrc, h8]
    decide

/-- Settles O24: raising the fault writes the code alone, in every status. -/
theorem reservedRecordsFault : Obligations.ReservedRecordsFault := by
  refine ⟨fun s d he => ?live, fun s d he => ?frozen, fun s d hn he => ?oneEdge⟩
  case live =>
    have hvalid : (s.raiseFault .reservedOp).resultValid = false := State.resultValid_of_faulted (by simp)
    exact ⟨by rw [exec_eq, execState_reserved d he]; rfl, hvalid, State.result_of_not_valid hvalid, rfl⟩
  case frozen => rw [exec_eq, execState_of_faulted _ he]
  case oneEdge =>
    have hdecode : decode (0b11#2 ++ d) = .reserved d := decode_encode (.reserved d)
    rw [step_drive, nextState_offer hn, hdecode, execState_reserved (s := { s with edge := s.edge + 1 }) d he]
    rfl

end Sys2Proof.Proofs
end

section
/-! SUPPORT. The command level along every run; the statements that the edges refine it (41_commands.md
R129, R131, R132). -/

namespace Sys2Proof.Machine

variable {s : State}

/-! ## The command level along a run -/

theorem cmdLevel_update (b : Byte) {v : CmdState} (he : v.ecode = .none) (hs : v.st ≠ .final) :
    cmdLevel (.update b) v = ⟨crcUpd v.crc b, .accum, .none⟩ := by
  obtain ⟨c, st, e⟩ := v
  subst he
  cases st with
  | final => contradiction
  | fresh | accum => rfl

theorem settled_nextState_of_transfer {i : Inputs} (hi : i.rst = false) (hn : s.cnt = 0)
    (hv : i.cmdValid = true) : (nextState s i).settled = cmdLevel (decode i.cmd) s.settled := by
  rw [nextState_of_transfer hi hn hv]
  exact settled_execState (s := { s with edge := s.edge + 1 }) _ hn

/-- One edge without reset is the row of the command transferred at it, if there is one. -/
theorem cmdLevelAll_transferred_cons {i : Inputs} (hi : i.rst = false) (is : List Inputs) :
    cmdLevelAll s.settled ((transferred s (i :: is)).map decode) =
      cmdLevelAll (nextState s i).settled ((transferred (nextState s i) is).map decode) := by
  rw [transferred_cons]
  cases harm : (s.drive i).arm with
  | reset => exact absurd (((s.drive i).arm_eq_reset.1 harm).symm.trans hi) (by decide)
  | engine =>
    obtain ⟨-, hn⟩ := (s.drive i).arm_eq_engine.1 harm
    rw [settled_nextState_of_no_transfer (s := s) hi (.inl hn)]
  | idle =>
    obtain ⟨-, -, hv⟩ := (s.drive i).arm_eq_idle.1 harm
    rw [settled_nextState_of_no_transfer (s := s) hi (.inr hv)]
  | transfer w =>
    obtain ⟨-, hn, hv, rfl⟩ := ((s.drive i).arm_eq_transfer w).1 harm
    rw [settled_nextState_of_transfer (s := s) hi hn hv]
    rfl

/-- Along a run without reset the settled state is the fold of the table over the commands transferred:
every other edge leaves it (R132). -/
theorem settled_runState {is : List Inputs} (hr : noReset is = true) :
    (runState s is).settled = cmdLevelAll s.settled ((transferred s is).map decode) := by
  induction is generalizing s with
  | nil => rfl
  | cons i is ih =>
    obtain ⟨hi, his⟩ := noReset_cons.1 hr
    exact (ih his).trans (cmdLevelAll_transferred_cons hi is).symm

/-- A word offered until it is taken waits out the engine steps left and is transferred once. -/
theorem transferred_waitAndOffer (s : State) (w : Command) : transferred s (waitAndOffer s w) = [w] := by
  unfold waitAndOffer
  induction hk : s.cnt.val generalizing s with
  | zero =>
    have harm : (s.drive (offer w)).arm = .transfer w :=
      (State.arm_eq_transfer _ w).2 ⟨rfl, Fin.val_eq_zero_iff.1 hk, rfl, rfl⟩
    simp [transferred_cons, harm]
  | succ k ih =>
    have hn : s.cnt ≠ 0 := Fin.val_ne_zero_iff.1 (by omega)
    have harm : (s.drive (offer w)).arm = .engine := (State.arm_eq_engine _).2 ⟨rfl, hn⟩
    have hnext : (nextState s (offer w)).cnt.val = k := by
      rw [nextState_of_engine rfl hn, State.engineStep_cnt, cntDown_val]
      exact Nat.sub_eq_of_eq_add hk
    rw [List.replicate_succ, transferred_cons, harm]
    exact ih _ hnext

end Sys2Proof.Machine

namespace Sys2Proof.Proofs

open Sys2Proof Sys2Proof.Machine

/-- Settles O41: a transferred command is its row of the table on the settled state; its engine steps
are counted down by edges without reset, and a reset edge overwrites all. -/
theorem commandLevelRefinement : Obligations.CommandLevelRefinement := by
  refine ⟨?atOnce, ?update, ?reset, ?finalize, ?table, fun i v => cmdLevel_of_faulted i⟩
  case atOnce =>
    intro s w hn hupdate
    have hcnt : (nextState s (offer w)).cnt = 0 := by
      rw [nextState_offer hn]
      exact ((execState_effect (decode w) { s with edge := s.edge + 1 }).cnt_eq
        fun ⟨he, hs, b, hb⟩ => hupdate ⟨he, hs, opField_of_decode_update hb⟩).trans hn
    refine ⟨_, step_drive s (offer w), hcnt, ?_⟩
    rw [← settled_of_idle hcnt, ← settled_of_idle hn]
    exact settled_nextState_of_transfer (i := offer w) rfl hn rfl
  case update =>
    intro s b is hn he hs hlen hr
    obtain ⟨hcrc, hcnt, hst, hecode⟩ := four_eq.1 (elements_runState_update b hn he hs hlen hr)
    refine ⟨_, runInputs_eq .., hcrc.trans (crcSteps_eq_iterate _ _), hcnt, hst, hecode,
      cmdReady_iff_of_countdown hlen hcnt, fun h8 => ?_⟩
    rw [cmdLevel_update b he hs, hcrc, hst, hecode, h8, ← crcUpd_eq_steps]
  case reset =>
    exact fun s b is i _ _ _ hi => ⟨_, runInputs_eq .., elements_runState_reset s _ hi⟩
  case finalize =>
    intro s w hn he hs hw
    refine ⟨_, step_drive s (offer w), ?_⟩
    have hnext : nextState s (offer w) = { s with edge := s.edge + 1 }.finish := by
      rw [nextState_offer hn, hw]
      exact execState_finalize (s := { s with edge := s.edge + 1 }) he hs
    have hvalid : (nextState s (offer w)).resultValid = true :=
      (State.resultValid_iff _).2 (hnext ▸ ⟨rfl, he⟩)
    exact ⟨hvalid, (State.result_of_valid hvalid).trans (by rw [hnext]; rfl)⟩
  case table =>
    intro c st b d
    cases st with
    | fresh | accum | final => exact ⟨rfl, rfl, rfl, rfl⟩

/-- Settles O42: where no engine steps are left the settled state is read off, and it is the fold of the
table over the words transferred. -/
theorem idleInsensitivity : Obligations.IdleInsensitivity := by
  have hfold : ∀ (s t : State) (is : List Inputs), s.cnt = 0 → noReset is = true →
      runInputs s is = .next t → t.cnt = 0 →
      (⟨t.crc, t.st, t.ecode⟩ : CmdState) =
        cmdLevelAll ⟨s.crc, s.st, s.ecode⟩ ((transferred s is).map decode) := by
    intro s t is hn hr hrun ht
    obtain rfl : runState s is = t := by
      simpa only [runInputs_eq, Host.Outcome.next.injEq] using hrun
    rw [← settled_of_idle ht, ← settled_of_idle hn, settled_runState hr]
  refine ⟨hfold, ?alike, fun s w => ⟨transferred_waitAndOffer s w, ?within⟩⟩
  case alike =>
    intro s s' t t' is is' hn hn' hstart hr hr' hwords hrun hrun' ht ht'
    have h := hfold s t is hn hr hrun ht
    have h' := hfold s' t' is' hn' hr' hrun' ht'
    simp only [Prod.mk.injEq] at hstart
    obtain ⟨hcrc, hst, hecode⟩ := hstart
    rw [hwords, hcrc, hst, hecode, ← h', CmdState.mk.injEq] at h
    obtain ⟨hcrc', hst', hecode'⟩ := h
    rw [hcrc', hst', hecode']
  case within =>
    rw [waitAndOffer, List.length_replicate]
    exact s.cnt.isLt

end Sys2Proof.Proofs
end

section
/-! SUPPORT. Transactions along runs: the commands of a message on the command-level table, faults that
stick, the count in FINAL, and the words transferred edge by edge; the statements of
42_transaction_contract.md. -/

namespace Sys2Proof.Machine

variable {s : State}

/-! ## The datapath as loops (R150) -/

theorem crcSteps_eq_foldl (n : Nat) (c : Word) :
    crcSteps n c = (List.range n).foldl (fun crc _ => crcStep crc) c := by
  induction n with
  | zero => rfl
  | succ n ih => rw [crcSteps_succ, crcSteps_step, List.range_succ, List.foldl_append, ← ih]; rfl

theorem crcFold_eq_foldl (c : Word) (bs : List Byte) : crcFold c bs = bs.foldl crcUpd c := by
  induction bs generalizing c with
  | nil => rfl
  | cons b bs ih => exact ih (crcUpd c b)

/-! ## Messages on the command-level table -/

/-- A recorded fault stays, whatever commands follow (R126). -/
theorem cmdLevelAll_of_faulted {v : CmdState} (h : v.ecode ≠ .none) (is : List Instr) :
    cmdLevelAll v is = v := by
  induction is with
  | nil => rfl
  | cons i is ih => exact (congrArg (cmdLevelAll · is) (cmdLevel_of_faulted i h)).trans ih

/-- Commands that record no fault record none at any earlier point. -/
theorem ecode_of_cmdLevelAll_append {v : CmdState} {is js : List Instr}
    (h : (cmdLevelAll v (is ++ js)).ecode = .none) : (cmdLevelAll v is).ecode = .none := by
  have happend : cmdLevelAll v (is ++ js) = cmdLevelAll (cmdLevelAll v is) js := List.foldl_append
  by_contra hfault
  exact hfault (by rwa [happend, cmdLevelAll_of_faulted hfault] at h)

/-- The commands of a message, begun with no fault recorded, fold its bytes from the initial value: the INIT
overwrites all the rest (R151). -/
theorem cmdLevelAll_messageCommands {v : CmdState} (he : v.ecode = .none) (bs : List Byte) :
    cmdLevelAll v (messageCommands bs) = ⟨crcFold Config.initVal bs, .final, .none⟩ := by
  have hinit : cmdLevel .init v = ⟨Config.initVal, .fresh, .none⟩ := by simp [cmdLevel, he]
  calc cmdLevelAll v (messageCommands bs)
    _ = cmdLevelAll (cmdLevel .init v) (bs.map .update ++ [.finalize]) := rfl
    _ = ⟨crcFold Config.initVal bs, .final, .none⟩ := by
      rw [hinit, cmdLevelAll_updates_finalize _ (by decide)]

/-- UPDATEs and a FINALIZE, begun outside FINAL with no fault recorded, record none (R159). -/
theorem ecode_cmdLevelAll_updates_finalize {v : CmdState} (he : v.ecode = .none) (hs : v.st ≠ .final)
    (bs : List Byte) : (cmdLevelAll v (bs.map .update ++ [.finalize])).ecode = .none := by
  obtain ⟨c, st, e⟩ := v
  subst he
  rw [cmdLevelAll_updates_finalize c hs]

/-! ## No engine steps are left in FINAL -/

theorem nextState_effect (s : State) (i : Inputs) : EdgeEffect (s.drive i) (nextState s i) :=
  step_effect (step_drive s i)

/-- The only command that writes a count leads to ACCUM. -/
theorem CommandEffect.final_idle {i : Instr} {t : State} (h : CommandEffect s i t) (hn : s.cnt = 0) :
    t.st = .final → t.cnt = 0 := by
  cases h with
  | absorbed _ _ => simp
  | discarded _ | started _ | finished _ _ | faulted _ _ => exact fun _ => hn

/-- I3 (10_state.md R31) is kept by every edge on its own, without the other invariants: engine steps keep
the status, and commands are executed at `cnt = 0`. -/
theorem EdgeEffect.final_idle {t : State} (h : EdgeEffect s t) (hs : s.st = .final → s.cnt = 0) :
    t.st = .final → t.cnt = 0 := by
  cases h with
  | reset _ => exact fun _ => rfl
  | engine _ hn => exact fun hst => absurd (hs hst) hn
  | idle _ hn _ => exact fun _ => hn
  | transfer _ hn _ heff => exact heff.final_idle hn

theorem final_idle_runState (hs : s.st = .final → s.cnt = 0) (is : List Inputs) :
    (runState s is).st = .final → (runState s is).cnt = 0 := by
  induction is generalizing s with
  | nil => exact hs
  | cons i is ih => exact ih ((nextState_effect s i).final_idle hs)

/-! ## The end of a transaction -/

theorem runState_of_runInputs {t : State} {is : List Inputs} (h : runInputs s is = .next t) :
    runState s is = t := by
  rwa [runInputs_eq, Host.Outcome.next.injEq] at h

/-- The four elements after a transaction on these bytes, whichever way it began (R151). -/
theorem IsTransaction.elements {is : List Inputs} {bs : List Byte} (h : IsTransaction s is bs) :
    ((runState s is).crc, (runState s is).cnt, (runState s is).st, (runState s is).ecode) =
      (crcFold Config.initVal bs, 0, .final, .none) := by
  obtain ⟨hr, hbegin⟩ := h
  have hn : s.cnt = 0 := hbegin.elim (fun ⟨hreset, _⟩ => (four_eq.1 hreset).2.1) And.left
  have hsettled : (runState s is).settled = ⟨crcFold Config.initVal bs, .final, .none⟩ := by
    rw [settled_runState hr]
    obtain ⟨hreset, hwords⟩ | ⟨-, he, hwords⟩ := hbegin
    · obtain ⟨hc, -, hs, he⟩ := four_eq.1 hreset
      rw [hwords, settled_of_idle hn, hc, hs, he, cmdLevelAll_updates_finalize _ (by decide)]
    · rw [hwords, cmdLevelAll_messageCommands (v := s.settled) he]
  have hst : (runState s is).st = .final := congrArg CmdState.st hsettled
  have hcnt : (runState s is).cnt = 0 := final_idle_runState (fun _ => hn) is hst
  rw [settled_of_idle hcnt] at hsettled
  exact four_eq.2 ⟨congrArg CmdState.crc hsettled, hcnt, hst, congrArg CmdState.ecode hsettled⟩

theorem IsTransaction.resultValid {is : List Inputs} {bs : List Byte} (h : IsTransaction s is bs) :
    (runState s is).resultValid = true :=
  have ⟨_, _, hst, he⟩ := four_eq.1 h.elements
  (State.resultValid_iff _).2 ⟨hst, he⟩

theorem IsTransaction.result {is : List Inputs} {bs : List Byte} (h : IsTransaction s is bs) :
    (runState s is).result = computeCrc32 bs :=
  have ⟨hcrc, _⟩ := four_eq.1 h.elements
  (State.result_of_valid h.resultValid).trans (congrArg crcFinalXor hcrc)

/-- Two transactions on the same bytes show the same outputs at their ends (R153). -/
theorem IsTransaction.outputs_eq {s' : State} {is is' : List Inputs} {bs : List Byte}
    (h : IsTransaction s is bs) (h' : IsTransaction s' is' bs) :
    (runState s is).outputs = (runState s' is').outputs :=
  State.outputs_congr (h.elements.trans h'.elements.symm)

theorem State.err_of_live (he : s.ecode = .none) : s.err = false := by simp [State.err, he]

/-- A run that transfers a beginning of commands that record no fault records none. -/
theorem live_of_beginning {is : List Inputs} {commands : List Instr} (hr : noReset is = true)
    (hwords : (transferred s is).map decode <+: commands)
    (hlive : (cmdLevelAll s.settled commands).ecode = .none) : (runState s is).ecode = .none := by
  obtain ⟨rest, rfl⟩ := hwords
  calc (runState s is).settled.ecode
    _ = (cmdLevelAll s.settled ((transferred s is).map decode)).ecode := by rw [settled_runState hr]
    _ = .none := ecode_of_cmdLevelAll_append hlive

/-! ## The words transferred, edge by edge -/

theorem transferred_cons_of_no_transfer {i : Inputs} (hi : i.rst = false)
    (h : s.cnt ≠ 0 ∨ i.cmdValid = false) (is : List Inputs) :
    transferred s (i :: is) = transferred (nextState s i) is := by
  by_cases hn : s.cnt = 0
  · have hv : i.cmdValid = false := h.resolve_left (not_not_intro hn)
    rw [transferred_cons, (State.arm_eq_idle (s.drive i)).2 ⟨hi, hn, hv⟩]
  · rw [transferred_cons, (State.arm_eq_engine (s.drive i)).2 ⟨hi, hn⟩]

theorem transferred_cons_of_transfer {i : Inputs} (hi : i.rst = false) (hn : s.cnt = 0)
    (hv : i.cmdValid = true) (is : List Inputs) :
    transferred s (i :: is) = i.cmd :: transferred (nextState s i) is := by
  rw [transferred_cons, (State.arm_eq_transfer (s.drive i) i.cmd).2 ⟨hi, hn, hv, rfl⟩]

theorem transferred_offer (hn : s.cnt = 0) (w : Command) (is : List Inputs) :
    transferred s (offer w :: is) = w :: transferred (nextState s (offer w)) is :=
  transferred_cons_of_transfer (i := offer w) rfl hn rfl is

theorem nextState_update {i : Inputs} {b : Byte} (hi : i.rst = false) (hn : s.cnt = 0)
    (hv : i.cmdValid = true) (he : s.ecode = .none) (hs : s.st ≠ .final) (hb : decode i.cmd = .update b) :
    nextState s i = { s with edge := s.edge + 1 }.absorb b := by
  rw [nextState_of_transfer hi hn hv, hb]
  exact execState_update (s := { s with edge := s.edge + 1 }) b he hs

/-- The engine steps left, nine edges for each UPDATE and one for the FINALIZE: each edge takes at most one
off this sum (R160). -/
theorem edges_of_message {is : List Inputs} {bs : List Byte} (he : s.ecode = .none) (hs : s.st ≠ .final)
    (hr : noReset is = true) (hwords : (transferred s is).map decode = bs.map .update ++ [.finalize]) :
    s.cnt.val + 9 * bs.length + 1 ≤ is.length := by
  induction is generalizing s bs with
  | nil => simp at hwords
  | cons i is ih =>
    obtain ⟨hi, his⟩ := noReset_cons.1 hr
    rw [List.length_cons]
    obtain hrst | ⟨-, hn⟩ | ⟨-, hn, hv⟩ | ⟨-, hn, hv⟩ := edge_cases s i
    · exact absurd (hrst.symm.trans hi) (by decide)
    · rw [transferred_cons_of_no_transfer hi (.inl hn), nextState_of_engine hi hn] at hwords
      have hrest : s.cnt.val - 1 + 9 * bs.length + 1 ≤ is.length :=
        ih (s := { s with edge := s.edge + 1 }.engineStep) he hs his hwords
      omega
    · rw [transferred_cons_of_no_transfer hi (.inr hv), nextState_of_idle hi hn hv] at hwords
      exact (ih (s := { s with edge := s.edge + 1 }) he hs his hwords).trans (Nat.le_succ _)
    · rw [transferred_cons_of_transfer hi hn hv] at hwords
      cases bs with
      | nil => simp [hn]
      | cons b bs =>
        simp only [List.map_cons, List.cons_append, List.cons.injEq] at hwords
        obtain ⟨hb, hwords⟩ := hwords
        rw [nextState_update hi hn hv he hs hb] at hwords
        have hrest : 8 + 9 * bs.length + 1 ≤ is.length :=
          ih (s := { s with edge := s.edge + 1 }.absorb b) he (by simp) his hwords
        rw [hn, Fin.val_zero, List.length_cons]
        omega

/-! ## The empty message -/

/-- INIT and FINALIZE are the transaction on no bytes (R152). -/
theorem isTransaction_init_finalize (hn : s.cnt = 0) (he : s.ecode = .none) :
    IsTransaction s [offer (encode .init), offer (encode .finalize)] [] := by
  have hinit : (nextState s (offer (encode .init))).cnt = 0 := by
    rw [nextState_offer hn, decode_encode, execState_init (s := { s with edge := s.edge + 1 }) he]
    exact hn
  refine ⟨rfl, .inr ⟨hn, he, ?_⟩⟩
  rw [transferred_offer hn, transferred_offer hinit]
  rfl

/-- FINALIZE alone is the transaction on no bytes, where a reset was just before it (R152). -/
theorem isTransaction_finalize
    (hreset : (s.crc, s.cnt, s.st, s.ecode) = (Config.initVal, 0, .fresh, .none)) :
    IsTransaction s [offer (encode .finalize)] [] := by
  obtain ⟨-, hn, -, -⟩ := four_eq.1 hreset
  refine ⟨rfl, .inl ⟨hreset, ?_⟩⟩
  rw [transferred_offer hn]
  rfl

end Sys2Proof.Machine

namespace Sys2Proof.Proofs

open Sys2Proof Sys2Proof.Machine

/-- Settles O43: the settled state at the end is the fold of the command-level table over the words of the
transaction, and in FINAL no engine steps are left. -/
theorem transactionTheorem : Obligations.TransactionTheorem := by
  intro s t is bs hr hrun hbegin
  obtain rfl := runState_of_runInputs hrun
  have h : IsTransaction s is bs := ⟨hr, hbegin⟩
  obtain ⟨hcrc, hcnt, hst, he⟩ := four_eq.1 h.elements
  exact ⟨hst, he, hcnt, hcrc, h.resultValid, State.err_of_live he, h.result⟩

/-- Settles O9: the fold is the outer loop and the eight engine steps are the inner one. -/
theorem checksumIsTheLoop : Obligations.ChecksumIsTheLoop := by
  refine fun bs => ⟨rfl, ?_⟩
  have hbody : crcUpd = fun c b => (List.range 8).foldl (fun crc _ => crcStep crc) (crcAbsorb c b) := by
    funext c b
    exact crcSteps_eq_foldl 8 _
  rw [computeCrc32, crcFold_eq_foldl, hbody]
  rfl

/-- Settles O10: a fold may be taken in two parts, and the final XOR is undone by the complement. -/
theorem incrementalEquivalence : Obligations.IncrementalEquivalence := by
  refine ⟨crcFold_append, fun s1 s2 => congrArg crcFinalXor (crcFold_append _ s1 s2), fun s1 => ?_⟩
  rw [computeCrc32, crcFinalXor_eq_not, BitVec.not_not]
  rfl

/-- Settles O46: the bytes fix the elements at the end of a transaction, and a run of several blocks is a run
of each on its own inputs. -/
theorem resultDependsOnBytesAlone : Obligations.ResultDependsOnBytesAlone := by
  refine ⟨?alone, ?interleaved, ?others⟩
  case alone =>
    exact fun s s' is is' bs h h' =>
      ⟨_, _, runInputs_eq s is, runInputs_eq s' is', h.outputs_eq h', h.resultValid⟩
  case interleaved =>
    intro k k' sys sys' es es' s s' bs hk hk' h h'
    obtain ⟨u, hu, hend⟩ := runInstances_eq sys es
    obtain ⟨u', hu', hend'⟩ := runInstances_eq sys' es'
    refine ⟨u, u', _, _, hu, hu', ?_, ?_, h.outputs_eq h', h.resultValid⟩
    · rw [hend, hk, Option.map_some]
    · rw [hend', hk', Option.map_some]
  case others =>
    intro j k sys hjk
    exact ⟨_, stepInstance_eq j sys, by simp [hjk]⟩

/-- Settles O48: the words of the whole transaction record no fault, and a fault recorded on the way would
stay. -/
theorem transactionsNeverFault : Obligations.TransactionsNeverFault := by
  refine ⟨?updates, ?message⟩
  case updates =>
    intro s t is bs _ he hs hr hrun hwords
    obtain rfl := runState_of_runInputs hrun
    have hlive := live_of_beginning hr hwords (ecode_cmdLevelAll_updates_finalize (v := s.settled) he hs bs)
    exact ⟨hlive, State.err_of_live hlive⟩
  case message =>
    intro s t is bs _ he hr hrun hwords
    obtain rfl := runState_of_runInputs hrun
    have hlive := live_of_beginning hr hwords (by rw [cmdLevelAll_messageCommands (v := s.settled) he])
    exact ⟨hlive, State.err_of_live hlive⟩

/-- Settles O52: from an idle state no engine steps are left to count. -/
theorem messageNeedsNineEdgesPerByte : Obligations.MessageNeedsNineEdgesPerByte := by
  intro s is bs hn he hs hr hwords
  simpa [hn] using edges_of_message he hs hr hwords

/-- Settles O11, by evaluation. -/
theorem checksumsTheSourceFixes : Obligations.ChecksumsTheSourceFixes := by
  unfold Obligations.ChecksumsTheSourceFixes
  decide +kernel

/-- Settles O45: both forms are the transaction on no bytes. -/
theorem emptyMessage : Obligations.EmptyMessage := by
  have hempty : computeCrc32 [] = 0x00000000 := checksumsTheSourceFixes.1
  refine ⟨hempty, fun s hn he => ?init, fun s => ?reset, fun s => State.result_of_not_valid⟩
  case init =>
    have h := isTransaction_init_finalize hn he
    exact ⟨_, runInputs_eq .., h.resultValid, h.result.trans hempty⟩
  case reset =>
    have h : IsTransaction (nextState s resetInputs) [offer (encode .finalize)] [] :=
      isTransaction_finalize (elements_runState_reset s [] resetInputs_rst)
    exact ⟨_, runInputs_eq .., h.resultValid, h.result.trans hempty⟩

/-- Settles O47, by the effect of INIT with and without a recorded fault; reset overwrites all. -/
theorem nothingCarriesOver : Obligations.NothingCarriesOver := by
  refine ⟨?init, ?idle, ?frozen, ?reset⟩
  case init =>
    intro s t hn he h
    obtain rfl : s.startTransaction = t := by
      simpa only [exec_eq, execState_init he, Host.Outcome.next.injEq] using h
    exact four_eq.2 ⟨rfl, hn, rfl, he⟩
  case idle =>
    intro s i w harm
    obtain ⟨-, hn, -, -⟩ := (State.arm_eq_transfer _ w).1 harm
    exact hn
  case frozen =>
    intro s t he h
    obtain rfl : s = t := by
      simpa only [exec_eq, execState_of_faulted _ he, Host.Outcome.next.injEq] using h
    rfl
  case reset =>
    intro s t i hi h
    obtain rfl : nextState s i = t := by
      simpa only [step_drive, Host.Outcome.next.injEq] using h
    exact elements_runState_reset s [] hi

end Sys2Proof.Proofs
end

section
/-! SUPPORT. What it takes to raise a protocol fault and what raising one writes (60_exceptions.md R171, R172),
a recorded fault along a run (R173, R174), and edges of two instances (R180); the statements of
60_exceptions.md. -/

namespace Sys2Proof.Machine

variable {s t : State} {i : Instr} {st : Status} {code : ECode}

/-! ## The causes of a protocol fault -/

/-- The causes by the opcode field of the transferred word (R171). -/
theorem faultCause_decode_iff {w : Command} :
    FaultCause st (decode w) code ↔
      (opField w = 0b11 ∧ code = .reservedOp) ∨
        (opField w = 0b01 ∧ st = .final ∧ code = .updateAfterFinal) ∨
        (opField w = 0b10 ∧ st = .final ∧ code = .finalizeAfterFinal) := by
  constructor
  · intro h
    obtain hop | hop | hop | hop := opcode_cases (opField w)
    · exact absurd (decode_of_init hop) h.ne_init
    · rw [decode_of_update hop] at h
      cases h
      exact .inr (.inl ⟨hop, rfl, rfl⟩)
    · rw [decode_of_finalize hop] at h
      cases h
      exact .inr (.inr ⟨hop, rfl, rfl⟩)
    · rw [decode_of_reserved hop] at h
      cases h
      exact .inl ⟨hop, rfl⟩
  · rintro (⟨hop, rfl⟩ | ⟨hop, rfl, rfl⟩ | ⟨hop, rfl, rfl⟩)
    · exact decode_of_reserved hop ▸ .reserved st (dataField w)
    · exact decode_of_update hop ▸ .update (dataField w)
    · exact decode_of_finalize hop ▸ .finalize

/-- The code recorded names the command that caused the fault (R173). -/
theorem FaultCause.code_iff (h : FaultCause st i code) :
    (code = .reservedOp ↔ ∃ d, i = .reserved d) ∧
      (code = .updateAfterFinal ↔ ∃ b, i = .update b) ∧
      (code = .finalizeAfterFinal ↔ i = .finalize) := by
  cases h with
  | reserved st d => simp
  | update b => simp
  | finalize => simp

/-- Each cause raises its code (R171). -/
theorem execState_of_cause (he : s.ecode = .none) (h : FaultCause s.st i code) :
    execState i s = s.raiseFault code := by
  generalize hst : s.st = st at h
  cases h with
  | reserved st d => exact execState_reserved d he
  | update b => exact execState_update_of_final b he hst
  | finalize => exact execState_finalize_of_final he hst

theorem nextState_offer_of_cause {w : Command} (hn : s.cnt = 0) (he : s.ecode = .none)
    (h : FaultCause s.st (decode w) code) :
    nextState s (offer w) = { s with ecode := code, edge := s.edge + 1 } :=
  (nextState_offer hn w).trans (execState_of_cause (s := { s with edge := s.edge + 1 }) he h)

/-! ## What changes the fault code -/

/-- A command that changes the fault code had a cause to raise a fault, and that is all it does. -/
theorem CommandEffect.raised (h : CommandEffect s i t) (ht : t.ecode ≠ s.ecode) :
    s.ecode = .none ∧ ∃ code, FaultCause s.st i code ∧ t = s.raiseFault code := by
  cases h with
  | faulted he hcause => exact ⟨he, _, hcause, rfl⟩
  | discarded _ | started _ | absorbed _ _ | finished _ _ => exact absurd rfl ht

/-- An edge that records another fault code transfers a command with a cause to raise it, with none
recorded before; reset, engine steps and idle edges raise none (R173). -/
theorem EdgeEffect.raised (h : EdgeEffect s t) (hnone : t.ecode ≠ .none) (ht : t.ecode ≠ s.ecode) :
    s.input.rst = false ∧ s.cnt = 0 ∧ s.input.cmdValid = true ∧ s.ecode = .none ∧
      ∃ code, FaultCause s.st (decode s.input.cmd) code ∧ t = s.tick.raiseFault code := by
  cases h with
  | reset _ => exact absurd rfl hnone
  | engine _ _ | idle _ _ _ => exact absurd rfl ht
  | transfer hr hn hv heff => exact ⟨hr, hn, hv, heff.raised ht⟩

theorem State.err_of_faulted (he : s.ecode ≠ .none) : s.err = true := by
  simp [State.err, he]

/-! ## A recorded fault along a run -/

/-- A recorded fault, and what the engine steps left over lead to, outlast every run without reset (R173). -/
theorem settled_runState_of_faulted {is : List Inputs} (he : s.ecode ≠ .none) (hr : noReset is = true) :
    (runState s is).settled = s.settled := by
  rw [settled_runState hr, cmdLevelAll_of_faulted (v := s.settled) he]

/-- A frozen block without engine steps left keeps its four elements along every run without reset, whatever
is offered (R174). -/
theorem elements_runState_of_frozen {is : List Inputs} (he : s.ecode ≠ .none) (hn : s.cnt = 0)
    (hr : noReset is = true) :
    let t := runState s is
    (t.crc, t.cnt, t.st, t.ecode) = (s.crc, s.cnt, s.st, s.ecode) := by
  induction is generalizing s with
  | nil => rfl
  | cons i is ih =>
    obtain ⟨hi, his⟩ := noReset_cons.1 hr
    have hnext : nextState s i = { s with edge := s.edge + 1 } := by
      cases hv : i.cmdValid with
      | false => exact nextState_of_idle hi hn hv
      | true => exact nextState_of_frozen hi hn hv he
    have hrun : runState s (i :: is) = runState { s with edge := s.edge + 1 } is :=
      congrArg (runState · is) hnext
    rw [hrun]
    exact ih (s := { s with edge := s.edge + 1 }) he hn his

end Sys2Proof.Machine

namespace Sys2Proof.Proofs

open Sys2Proof Sys2Proof.Machine

/-- Settles O27: an edge that records a code had one of the three causes, and each cause raises its code. -/
theorem protocolFaultCausesAndEntry : Obligations.ProtocolFaultCausesAndEntry := by
  refine ⟨?entry, ?causes, rfl⟩
  case entry =>
    intro s i t h he ht
    obtain ⟨hr, hn, hv, -, code, hcause, rfl⟩ := (step_effect h).raised ht (by rwa [State.drive_ecode, he])
    have hvalid : ((s.drive i).tick.raiseFault code).resultValid = false := State.resultValid_of_faulted ht
    exact ⟨hr, hn, hv, faultCause_decode_iff.1 hcause, rfl, rfl, rfl, State.err_of_faulted ht, rfl, hvalid,
      State.result_of_not_valid hvalid, (State.cmdReady_iff _).2 hn, rfl⟩
  case causes =>
    intro s w hn he
    have hraise (code : ECode) (h : FaultCause s.st (decode w) code) :
        step (s.drive (offer w)) = .next { s with ecode := code, edge := s.edge + 1 } := by
      rw [step_drive, nextState_offer_of_cause hn he h]
    exact ⟨fun hop => hraise _ (faultCause_decode_iff.2 (.inl ⟨hop, rfl⟩)),
      fun hop hs => hraise _ (faultCause_decode_iff.2 (.inr (.inl ⟨hop, hs, rfl⟩))),
      fun hop hs => hraise _ (faultCause_decode_iff.2 (.inr (.inr ⟨hop, hs, rfl⟩)))⟩

/-- Settles O28: only an executed command has a cause, each cause has its own opcode, and a recorded fault
is part of the settled state, which a frozen block keeps. -/
theorem firstFaultWins : Obligations.FirstFaultWins := by
  refine ⟨?order, ?oneCause, ?first⟩
  case order =>
    intro s i t h hcase
    by_contra hraised
    obtain ⟨hnone, ht⟩ := not_or.1 hraised
    obtain ⟨hr, hn, hv, he, -⟩ := (step_effect h).raised hnone ht
    obtain hr' | hn' | hv' | he' := hcase
    · exact absurd (hr'.symm.trans hr) (by decide)
    · exact hn' hn
    · exact absurd (hv'.symm.trans hv) (by decide)
    · exact he' he
  case oneCause =>
    intro i s t he h ht
    obtain ⟨-, code, hcause, rfl⟩ := (exec_effect h).raised (by rwa [he])
    exact hcause.code_iff
  case first =>
    intro s is he hr
    have hsettled := settled_runState_of_faulted he hr
    exact ⟨_, runInputs_eq s is, congrArg CmdState.ecode hsettled, congrArg CmdState.st hsettled⟩

/-- Settles O29: a frozen block discards every command, so nothing but a reset edge changes it. -/
theorem onlyResetLeavesAFault : Obligations.OnlyResetLeavesAFault := by
  obtain ⟨hdiscard, -, honlyReset⟩ := frozenDiscardsCommands
  refine ⟨?commands, ?run, ?reset, ?cleared⟩
  case commands =>
    intro i s t he h
    obtain rfl : s = t := by simpa only [hdiscard i s he, Host.Outcome.next.injEq] using h
    rfl
  case run =>
    intro s is he hn hr
    have hkept := elements_runState_of_frozen he hn hr
    obtain ⟨-, -, -, hecode⟩ := four_eq.1 hkept
    exact ⟨_, runInputs_eq s is, hkept, State.resultValid_of_faulted (by rwa [hecode])⟩
  case reset =>
    exact fun s i _ hi => ⟨_, step_drive s i, elements_runState_reset s [] hi⟩
  case cleared =>
    exact fun s t he h ht => honlyReset s t he h fun hkept => he (hkept.symm.trans ht)

/-- Settles O30: an edge modifies one place of the list, and modifications of two places commute. -/
theorem instancesAreIndependent : Obligations.InstancesAreIndependent := by
  refine ⟨?others, ?order⟩
  case others =>
    intro k sys sys' h
    rw [stepInstance_eq, Host.Outcome.next.injEq] at h
    subst h
    exact ⟨List.length_modify .., fun j hj => List.getElem?_modify_ne _ _ hj.symm⟩
  case order =>
    intro j k sys hjk
    refine ⟨_, _, _, stepInstance_eq j sys, stepInstance_eq k _, stepInstance_eq k sys, ?_⟩
    rw [stepInstance_eq, List.modify_modify_ne _ _ _ hjk]

end Sys2Proof.Proofs
end

section
/-! SUPPORT. Reset edges and the edges that are left to an UPDATE (70_reset_and_hazards.md R190, R196, R200),
the host that offers each command as early as possible (R201), and runs as the host's interface makes them
(R203); the statements of 70_reset_and_hazards.md. -/

namespace Sys2Proof.Machine

variable {s t : State}

/-! ## What only reset can do (R190) -/

/-- Without reset, an edge with engine steps left takes one of them. -/
theorem EdgeEffect.eq_engineStep (h : EdgeEffect s t) (hr : s.input.rst = false) (hn : s.cnt ≠ 0) :
    t = s.tick.engineStep := by
  cases h with
  | reset hr' => exact absurd (hr'.symm.trans hr) (by decide)
  | engine _ _ => rfl
  | idle _ hn' _ => exact absurd hn' hn
  | transfer _ hn' _ _ => exact absurd hn' hn

/-- Edges of reset, at least one of them, end in the elements of the reset state. -/
theorem elements_runState_resets (s : State) {is : List Inputs} (hne : is ≠ [])
    (hreset : ∀ i ∈ is, i.rst = true) :
    let t := runState s is
    (t.crc, t.cnt, t.st, t.ecode) = (0xFFFFFFFF, 0, .fresh, .none) := by
  rw [← List.dropLast_append_getLast hne]
  exact elements_runState_reset s _ (hreset _ (List.getLast_mem hne))

/-! ## The ends of a run (R203) -/

theorem State.faulted_iff : s.faulted = true ↔ s.ecode ≠ .none := by simp [State.faulted, State.err]

theorem State.inFlight_iff : s.inFlight = true ↔ s.cnt ≠ 0 := by simp [State.inFlight, State.cmdReady]

theorem State.succeeded_iff : s.succeeded = true ↔ s.st = .final ∧ s.ecode = .none := s.resultValid_iff

theorem State.inFlight_of_idle (hn : s.cnt = 0) : s.inFlight = false :=
  Bool.eq_false_iff.2 fun h => State.inFlight_iff.1 h hn

/-! ## Ready again (R196, R200) -/

/-- A word of the opcode of UPDATE is the word an encoder emits for its byte. -/
theorem encode_update_dataField {w : Command} (h : opField w = 0b01) : encode (.update (dataField w)) = w :=
  decode_of_update h ▸ (encode_decode_iff w).2 (.inl ((canonicalWord_iff w).2 (.inl h)))

/-- The wait for the engine steps left is over after as many edges, and not before. -/
theorem cmdReady_runState_iff {is : List Inputs} (hr : noReset is = true) (hlen : is.length ≤ s.cnt.val) :
    (runState s is).cmdReady = true ↔ is.length = s.cnt.val := by
  obtain ⟨hcnt, -⟩ := runState_countdown hr hlen
  rw [State.cmdReady_iff, ← Fin.val_eq_zero_iff, hcnt, Nat.sub_eq_zero_iff_le]
  exact ⟨hlen.antisymm, Eq.ge⟩

/-! ## The host that offers each command as early as possible (R201) -/

/-- The earliest host's edges once a transaction has begun: those of its UPDATEs and of its FINALIZE. -/
def bodyInputs (bs : List Byte) : List Inputs := bs.flatMap updateInputs ++ [offer (encode .finalize)]

theorem messageInputs_eq (bs : List Byte) : messageInputs bs = offer (encode .init) :: bodyInputs bs := rfl

theorem bodyInputs_cons (b : Byte) (bs : List Byte) :
    bodyInputs (b :: bs) = updateInputs b ++ bodyInputs bs := by
  simp [bodyInputs]

theorem length_updateInputs (b : Byte) : (updateInputs b).length = 9 := rfl

theorem length_bodyInputs (bs : List Byte) : (bodyInputs bs).length = 9 * bs.length + 1 := by
  induction bs with
  | nil => rfl
  | cons b bs ih =>
    rw [bodyInputs_cons, List.length_append, length_updateInputs, ih, List.length_cons]
    omega

theorem length_messageInputs (bs : List Byte) : (messageInputs bs).length = 9 * bs.length + 2 := by
  rw [messageInputs_eq, List.length_cons, length_bodyInputs]

theorem noReset_append {is js : List Inputs} :
    noReset (is ++ js) = true ↔ noReset is = true ∧ noReset js = true := by
  simp [noReset]

theorem noReset_bodyInputs (bs : List Byte) : noReset (bodyInputs bs) = true := by
  induction bs with
  | nil => rfl
  | cons b bs ih => rw [bodyInputs_cons, noReset_append]; exact ⟨rfl, ih⟩

/-- The words of a run are those of its two parts. -/
theorem transferred_append (s : State) (is js : List Inputs) :
    transferred s (is ++ js) = transferred s is ++ transferred (runState s is) js := by
  induction is generalizing s with
  | nil => rfl
  | cons i is ih =>
    have hrun : runState s (i :: is) = runState (nextState s i) is := rfl
    rw [List.cons_append, transferred_cons, transferred_cons, ih, hrun]
    cases (s.drive i).arm with
    | reset | engine | idle | transfer w => rfl

/-- Where nothing is offered nothing is transferred, engine steps left or not. -/
theorem transferred_idles (s : State) (n : Nat) : transferred s (List.replicate n idleInputs) = [] := by
  induction n generalizing s with
  | zero => rfl
  | succ n ih => rw [List.replicate_succ, transferred_cons_of_no_transfer rfl (.inr rfl), ih]

theorem transferred_updateInputs (hn : s.cnt = 0) (b : Byte) :
    transferred s (updateInputs b) = [encode (.update b)] := by
  rw [updateInputs, transferred_offer hn, transferred_idles]

/-- After the nine edges of an UPDATE the block is idle and live again. -/
theorem elements_runState_updateInputs (b : Byte) (hn : s.cnt = 0) (he : s.ecode = .none)
    (hs : s.st ≠ .final) :
    let t := runState s (updateInputs b)
    (t.crc, t.cnt, t.st, t.ecode) = (crcUpd s.crc b, 0, .accum, .none) := by
  obtain ⟨hcrc, hcnt, hst, hecode⟩ :=
    four_eq.1 (elements_runState_update b (is := List.replicate Config.nStep idleInputs) hn he hs le_rfl rfl)
  rw [List.length_replicate] at hcrc hcnt
  rw [updateInputs]
  exact four_eq.2 ⟨hcrc, Fin.val_eq_zero_iff.1 hcnt, hst, hecode⟩

/-- The earliest host transfers each UPDATE and the FINALIZE. -/
theorem transferred_bodyInputs (hn : s.cnt = 0) (he : s.ecode = .none) (hs : s.st ≠ .final)
    (bs : List Byte) : (transferred s (bodyInputs bs)).map decode = bs.map .update ++ [.finalize] := by
  induction bs generalizing s with
  | nil =>
    rw [bodyInputs, List.flatMap_nil, List.nil_append, transferred_offer hn]
    rfl
  | cons b bs ih =>
    obtain ⟨-, hcnt, hst, hecode⟩ := four_eq.1 (elements_runState_updateInputs b hn he hs)
    have hrest : (transferred (runState s (updateInputs b)) (bodyInputs bs)).map decode =
        bs.map .update ++ [.finalize] :=
      ih hcnt hecode (by rw [hst]; decide)
    rw [bodyInputs_cons, transferred_append, transferred_updateInputs hn, List.map_append, hrest,
      List.map_singleton, decode_encode]
    rfl

/-- From the elements of the reset state the earliest host's UPDATEs and FINALIZE are a transaction. -/
theorem isTransaction_bodyInputs
    (hreset : (s.crc, s.cnt, s.st, s.ecode) = (Config.initVal, 0, .fresh, .none)) (bs : List Byte) :
    IsTransaction s (bodyInputs bs) bs := by
  obtain ⟨-, hn, hs, he⟩ := four_eq.1 hreset
  exact ⟨noReset_bodyInputs bs, .inl ⟨hreset, transferred_bodyInputs hn he (by simp [hs]) bs⟩⟩

/-- From every idle state with no fault the earliest host's whole message is transferred. -/
theorem transferred_messageInputs (hn : s.cnt = 0) (he : s.ecode = .none) (bs : List Byte) :
    (transferred s (messageInputs bs)).map decode = messageCommands bs := by
  have hinit : nextState s (offer (encode .init)) = { s with edge := s.edge + 1 }.startTransaction := by
    rw [nextState_offer hn, decode_encode, execState_init (s := { s with edge := s.edge + 1 }) he]
  have hbody := transferred_bodyInputs (s := { s with edge := s.edge + 1 }.startTransaction) hn he
    (by simp) bs
  rw [messageInputs_eq, transferred_offer hn, hinit, List.map_cons, decode_encode, hbody, messageCommands]

theorem isTransaction_messageInputs (hn : s.cnt = 0) (he : s.ecode = .none) (bs : List Byte) :
    IsTransaction s (messageInputs bs) bs :=
  ⟨noReset_cons.2 ⟨rfl, noReset_bodyInputs bs⟩, .inr ⟨hn, he, transferred_messageInputs hn he bs⟩⟩

/-! ## The inputs a state names are no part of what an edge does (R203) -/

theorem execWrites_with_inputs (s : State) (i : Instr) (is : List Inputs) :
    execWrites { s with inputs := is } i = { execWrites s i with inputs := is } := by
  cases i with
  | init | reserved d => rfl
  | update b | finalize =>
    simp only [execWrites]
    split <;> rfl

theorem execState_with_inputs (i : Instr) (s : State) (is : List Inputs) :
    execState i { s with inputs := is } = { execState i s with inputs := is } := by
  by_cases he : s.ecode = .none
  · rw [execState_of_live i he, execState_of_live (s := { s with inputs := is }) i he, execWrites_with_inputs]
  · rw [execState_of_faulted i he, execState_of_faulted (s := { s with inputs := is }) i he]

/-- An edge driven with `i` neither reads nor writes the inputs named after it. -/
theorem nextState_with_inputs (s : State) (i : Inputs) (is : List Inputs) :
    nextState { s with inputs := is } i = { nextState s i with inputs := is } := by
  have harm : (({ s with inputs := is } : State).drive i).arm = (s.drive i).arm := rfl
  unfold nextState
  rw [harm]
  cases (s.drive i).arm with
  | reset | engine | idle => rfl
  | transfer w => exact execState_with_inputs (decode w) { s with edge := s.edge + 1 } is

/-- A run of the interface goes on from the state after its first step. -/
theorem run_succ_of_next {M : Host.Core} {s t : M.State} (n : Nat) (h : M.step s = .next t) :
    M.run (n + 1) s = M.run n t := by
  rw [Host.Core.run, h]

end Sys2Proof.Machine

namespace Sys2Proof.Proofs

open Sys2Proof Sys2Proof.Machine

/-- Settles O32: arm A is chosen at every edge with `rst = 1`, and of the other arms none clears the fault code
and only the engine step is taken while steps are left. -/
theorem resetBeatsEverything : Obligations.ResetBeatsEverything := by
  refine ⟨fun s valid w => ⟨(State.arm_eq_reset _).2 rfl, ?edge⟩,
    fun s is hne hreset => ⟨_, runInputs_eq s is, elements_runState_resets s hne hreset⟩,
    fun s t h hr => ⟨?fault, ?count, ?update⟩⟩
  case edge =>
    rw [step_drive, nextState_of_reset rfl]
    rfl
  case fault =>
    obtain ⟨-, -, -, honlyReset⟩ := onlyResetLeavesAFault
    exact fun he ht => absurd (hr.symm.trans (honlyReset s t he h ht)) (by decide)
  case count =>
    intro ht
    by_cases hn : s.cnt = 0
    · simp [hn]
    · obtain rfl := (step_effect h).eq_engineStep hr hn
      exact Nat.sub_eq_zero_iff_le.1 (Fin.val_eq_zero_iff.2 ht)
  case update =>
    intro hn
    obtain rfl := (step_effect h).eq_engineStep hr hn
    exact ⟨rfl, rfl⟩

/-- Settles O49: eight engine steps follow an executed UPDATE, and every other event leaves the count at 0. -/
theorem edgeCounts : Obligations.EdgeCounts := by
  refine ⟨?update, ?atOnce, ?idle, ?reset⟩
  case update =>
    intro s w is hn he hs hw hr hlen
    rw [← encode_update_dataField hw]
    obtain ⟨-, hcnt, -, -⟩ := four_eq.1 (elements_runState_update (dataField w) hn he hs hlen hr)
    exact ⟨_, runInputs_eq .., cmdReady_iff_of_countdown hlen hcnt⟩
  case atOnce =>
    intro s w hn hupdate
    obtain ⟨hatOnce, -⟩ := commandLevelRefinement
    obtain ⟨t, ht, hcnt, -⟩ := hatOnce s w hn hupdate
    exact ⟨t, ht, t.cmdReady_iff.2 hcnt⟩
  case idle =>
    refine fun s w hn => ⟨_, step_drive .., ?_⟩
    rw [nextState_of_idle rfl hn rfl]
    exact (State.cmdReady_iff _).2 hn
  case reset =>
    refine fun s valid w => ⟨_, step_drive .., ?_⟩
    rw [nextState_of_reset rfl]
    rfl

/-- Settles O50: edges without reset count the engine steps down, whatever is offered. -/
theorem readyWithinEightEdges : Obligations.ReadyWithinEightEdges := by
  intro s is hr hlen
  obtain ⟨hcnt, -⟩ := runState_countdown hr hlen
  exact ⟨_, runInputs_eq s is, hcnt, cmdReady_runState_iff hr hlen, Fin.is_le _⟩

/-- Settles O51: nine edges for each UPDATE, and the words they transfer are a transaction. -/
theorem earliestMessage : Obligations.EarliestMessage := by
  refine ⟨length_messageInputs, ?init, ?reset, fun bs h => by rw [length_messageInputs, h]⟩
  case init =>
    intro s bs hn he
    have h := isTransaction_messageInputs hn he bs
    exact ⟨transferred_messageInputs hn he bs, _, runInputs_eq .., h.resultValid, h.result⟩
  case reset =>
    intro s bs
    have h : IsTransaction (nextState s resetInputs) (bodyInputs bs) bs :=
      isTransaction_bodyInputs (elements_runState_reset s [] resetInputs_rst) bs
    exact ⟨_, runInputs_eq .., length_bodyInputs bs, h.resultValid, h.result⟩

/-- Settles O56, by induction on the inputs: a step uses up the first input the state names, and the ones
named after it change nothing of the edge. -/
theorem runsAreTheInterfacesRuns : Obligations.RunsAreTheInterfacesRuns := by
  intro s is
  induction is generalizing s with
  | nil => rfl
  | cons i is ih =>
    have hstep : step { s with inputs := i :: is ++ s.inputs } =
        .next { nextState s i with inputs := is ++ (nextState s i).inputs } := by
      rw [nextState_inputs, ← nextState_with_inputs]
      exact step_drive { s with inputs := is ++ s.inputs } i
    rw [runInputs_cons, ← ih]
    exact run_succ_of_next (M := core) is.length hstep

/-- Settles O33, by the effects of INIT, UPDATE and FINALIZE where no fault is recorded. -/
theorem resetBeginsATransaction : Obligations.ResetBeginsATransaction := by
  refine ⟨rfl, ?init, fun b => ?update, ?finalize⟩
  case init =>
    obtain ⟨hinit, -⟩ := nothingCarriesOver
    exact hinit
  case update =>
    exact ⟨_, by rw [exec_eq, execState_update b State.reset_ecode (by simp)], rfl, rfl⟩
  case finalize =>
    exact ⟨_, by rw [exec_eq, execState_finalize State.reset_ecode (by simp)], rfl⟩

/-- Settles O40: by I5 a fault, and by I3 a valid result, excludes engine steps left; a valid result excludes
a fault. -/
theorem endsOfARunExcludeEachOther : Obligations.EndsOfARunExcludeEachOther := by
  refine fun s hinv => ⟨fun h => ?faulted, fun h => ?inFlight, fun h => ?succeeded⟩
  case faulted =>
    have he := State.faulted_iff.1 h
    exact ⟨State.resultValid_of_faulted he, State.inFlight_of_idle (hinv.fault_idle he)⟩
  case inFlight =>
    obtain ⟨hs, he⟩ := hinv.busy (State.inFlight_iff.1 h)
    have hstatus : s.outputs.status = s.st.code := rfl
    exact ⟨by simp [State.succeeded, State.resultValid, hs], State.err_of_live he, by rw [hstatus, hs]; rfl⟩
  case succeeded =>
    obtain ⟨hs, he⟩ := State.succeeded_iff.1 h
    exact ⟨State.err_of_live he, State.inFlight_of_idle (hinv.final_idle hs)⟩

end Sys2Proof.Proofs
end

section
/-! SUPPORT. The words of the encoding's test vectors (95_test_vectors.md section 4). -/

namespace Sys2Proof.Proofs

open Sys2Proof Sys2Proof.Machine

/-- Settles O14: the opcode field of each word picks its row of the opcode map, and its data field is the
operand. -/
theorem wordsDecodeAsWritten : Obligations.WordsDecodeAsWritten :=
  ⟨decode_of_init rfl, decode_of_init rfl,
    decode_of_update rfl, decode_of_update rfl, decode_of_update rfl,
    decode_of_finalize rfl, decode_of_finalize rfl,
    decode_of_reserved rfl, decode_of_reserved rfl⟩

end Sys2Proof.Proofs
end
